-- ==== Sys2Proof/Word.lean ====
section
/-! DEFINITION. The bit vectors of the Iridium core (00_scope.md R5, R7): bytes, register words and immediates. -/

namespace Sys2Proof

/-- One byte of the program memory, an opcode byte or an operand byte (R30, R5 `OPBITS`, `IDXBITS`). -/
abbrev Byte := BitVec 8

/-- The content of a general register, of `pc` or of `rem` (R5 `XLEN`, `PCLEN`, `REMLEN`). -/
abbrev Word := BitVec 32

/-- The immediate of `LOAD` (R5 `IMMBITS`). -/
abbrev Imm16 := BitVec 16

/-- The number of a general register, 0 to 31 (R10). -/
abbrev RegNum := Fin 32

end Sys2Proof
end

