-- ==== Sys2Proof/Config.lean ====
section
/-! DEFINITION. The fixed parameters of the core (00_scope.md R5), and the free values: the spec leaves no value of a step open, but
gives the port `result` no bit patterns and no value before the first step (80_interfaces.md R180). -/

namespace Sys2Proof

/-- `NREGS`, the number of general registers (R5). -/
abbrev Config.nregs : Nat := 32

/-- `ILEN`, the encoded length of every instruction in bytes (R5, R50). -/
abbrev Config.ilen : Nat := 4

/-- `NOPCODES`, opcode bytes 0 to 6 are legal (R5). -/
abbrev Config.nopcodes : Nat := 7

/-- `PROG_LEN_MAX` = 2^31, the largest legal program length in bytes (R5, R6, D2). -/
abbrev Config.progLenMax : Nat := 2147483648

/-- What a byte of program memory reads as when memory lists nothing for it.
DESIGN CHOICE (log entry 2), unsafe: the host installs every byte below `PROG_LEN` (R163), so on an installed
program this only fixes how a zero byte is held. -/
def Config.unlistedByte : Byte := 0

/-- Which of the 24 ways to give `Continue`, `Done` and `Fault` three different patterns of two bits the port `result`
uses. DESIGN CHOICE (log entry 17), safe: R180 gives the width and the three results, not their patterns, so the number
is free and nothing can evaluate it. -/
opaque Config.resultEncoding : Fin 24

/-- What the port `result` shows between a reset and the first completed step after it, by the number of resets so far.
DESIGN CHOICE (log entry 17), safe: R180 gives a value only once a step has completed, so the value is free. -/
opaque Config.resultBeforeStep : Nat → BitVec 2

end Sys2Proof
end

