-- ==== Sys2Proof/Syntax.lean ====
section
/-! DEFINITION. The seven opcodes, the instructions, and the instruction record of the reference encoder
(30_encoding.md R51 to R53, 80_interfaces.md R186). -/

namespace Sys2Proof

/-- The closed opcode set (R53, R58). -/
inductive Opcode where
  | hlt
  | load
  | add
  | sub
  | div
  | mul
  | gt
  deriving DecidableEq, Repr

/-- One constructor per row of spec/opcode_table.json, its operands in the order of the bytes they encode to (R51, R61).
A register-index operand is the whole byte (R55, R63): a value of 32 or more is still the instruction, which then
faults. `HLT` carries no operand, since its operand bytes are never read (R57, log entry 6). -/
inductive Instr where
  | hlt
  | load (rd : Byte) (imm : Imm16)
  | add (ra rb rd : Byte)
  | sub (ra rb rd : Byte)
  | div (ra rb rd : Byte)
  | mul (ra rb rd : Byte)
  | gt (ra rb rd : Byte)
  deriving DecidableEq, Repr

/-- An instruction record of the source's instruction model: an opcode valid by construction and three arbitrary
bytes (R50, R186). -/
structure Record where
  opcode : Opcode
  byte1 : Byte
  byte2 : Byte
  byte3 : Byte
  deriving DecidableEq, Repr

/-- The opcode of an instruction. -/
def Instr.opcode : Instr → Opcode
  | .hlt => .hlt
  | .load _ _ => .load
  | .add _ _ _ => .add
  | .sub _ _ _ => .sub
  | .div _ _ _ => .div
  | .mul _ _ _ => .mul
  | .gt _ _ _ => .gt

/-- The operand bytes the format defines as register indices (R52, R76). -/
def Instr.indexBytes : Instr → List Byte
  | .hlt => []
  | .load rd _ => [rd]
  | .add ra rb rd => [ra, rb, rd]
  | .sub ra rb rd => [ra, rb, rd]
  | .div ra rb rd => [ra, rb, rd]
  | .mul ra rb rd => [ra, rb, rd]
  | .gt ra rb rd => [ra, rb, rd]

end Sys2Proof
end

