-- ==== Sys2Proof/WellFormed.lean ====
section
/-! DEFINITION. Which instructions are well formed: every register-index byte is 0 to 31 (30_encoding.md R52, R55). -/

namespace Sys2Proof

/-- A register-index byte selects a register exactly when it is 0 to 31 (R55). -/
def indexLegal (b : Byte) : Bool := decide (b.toNat ≤ 31)

/-- Every register-index byte of the instruction is legal (R76). An instruction that is not well formed raises
`RegisterIndexOutOfRange`. -/
def Instr.wellFormed (i : Instr) : Bool := i.indexBytes.all indexLegal

end Sys2Proof
end

