-- ==== Sys2Proof/Decode.lean ====
section
/-! DEFINITION. The instruction decoder, total on any bytes, and the encoder (30_encoding.md R50 to R63,
40_step_cycle.md R73 to R75, 80_interfaces.md R186). -/

namespace Sys2Proof

/-- What the decoder answers. The two rejections are the decode faults of R131 and R134. -/
inductive DecodeResult where
  | instr (i : Instr)
  | illegalOpcode
  | truncated
  deriving DecidableEq, Repr

/-- The opcode map (R53); 7 to 255 are illegal (R56). `DIV` is 4 and `MUL` is 5 (C3). -/
def opcodeOfByte (b : Byte) : Option Opcode :=
  match b.toNat with
  | 0 => some .hlt
  | 1 => some .load
  | 2 => some .add
  | 3 => some .sub
  | 4 => some .div
  | 5 => some .mul
  | 6 => some .gt
  | _ => none

/-- The opcode byte of an opcode (R53). -/
def opcodeByte : Opcode → Byte
  | .hlt => 0
  | .load => 1
  | .add => 2
  | .sub => 3
  | .div => 4
  | .mul => 5
  | .gt => 6

/-- Opcodes 1 to 6 consume three operand bytes, `HLT` consumes none (R53, R59). -/
def takesOperands : Opcode → Bool
  | .hlt => false
  | .load => true
  | .add => true
  | .sub => true
  | .div => true
  | .mul => true
  | .gt => true

/-- The 16-bit immediate, high byte first (R54, R32). -/
def immOfBytes (high low : Byte) : Imm16 := high ++ low

/-- The high byte of an immediate (R54). -/
def immHigh (imm : Imm16) : Byte := imm.extractLsb' 8 8

/-- The low byte of an immediate (R54). -/
def immLow (imm : Imm16) : Byte := imm.extractLsb' 0 8

/-- The instruction of an opcode and the three bytes after it: formats `Z`, `RI` and `RRR` (R51, R52). -/
def assemble (op : Opcode) (b1 b2 b3 : Byte) : Instr :=
  match op with
  | .hlt => .hlt
  | .load => .load b1 (immOfBytes b2 b3)
  | .add => .add b1 b2 b3
  | .sub => .sub b1 b2 b3
  | .div => .div b1 b2 b3
  | .mul => .mul b1 b2 b3
  | .gt => .gt b1 b2 b3

/-- The decoder: it reads an instruction from the bytes that lie from an address upward. The opcode is judged first,
then whether all three operand bytes are there (R73, R75, R135). `HLT` needs the opcode byte only (R57). No byte at
all is named truncated; a step never decodes that (log entry 8). -/
def decode : List Byte → DecodeResult
  | [] => .truncated
  | b0 :: rest =>
    match opcodeOfByte b0 with
    | none => .illegalOpcode
    | some op =>
      match takesOperands op, rest with
      | false, _ => .instr (assemble op 0 0 0)
      | true, b1 :: b2 :: b3 :: _ => .instr (assemble op b1 b2 b3)
      | true, _ => .truncated

/-- The four bytes of an instruction (R50, R61). The operand bytes of `HLT` are written as 0 (R90). -/
def encode (i : Instr) : List Byte :=
  opcodeByte i.opcode ::
    match i with
    | .hlt => [0, 0, 0]
    | .load rd imm => [rd, immHigh imm, immLow imm]
    | .add ra rb rd => [ra, rb, rd]
    | .sub ra rb rd => [ra, rb, rd]
    | .div ra rb rd => [ra, rb, rd]
    | .mul ra rb rd => [ra, rb, rd]
    | .gt ra rb rd => [ra, rb, rd]

/-- The four bytes of an instruction record, whatever its operand bytes (R186). -/
def encodeRecord (r : Record) : List Byte := [opcodeByte r.opcode, r.byte1, r.byte2, r.byte3]

/-- The reference encoder: the records' bytes, concatenated with nothing between them (R186). -/
def encodeRecords : List Record → List Byte
  | [] => []
  | r :: rs => encodeRecord r ++ encodeRecords rs

/-- The instruction a record stands for. -/
def recordInstr (r : Record) : Instr := assemble r.opcode r.byte1 r.byte2 r.byte3

/-- The instruction word `I = b0 ++ b1 ++ b2 ++ b3` laid out in memory, `b0` at the lowest address (R8). -/
def bytesOfTableWord (w : BitVec 32) : List Byte :=
  [w.extractLsb' 24 8, w.extractLsb' 16 8, w.extractLsb' 8 8, w.extractLsb' 0 8]

/-- The 32-bit instruction word whose low `nbits` bits are those of `w`, the rest zero. -/
def tableWord (nbits w : Nat) : BitVec 32 := BitVec.ofNat 32 (w % 2 ^ nbits)

/-- The instruction the decoder reads from an instruction word numbered as spec/opcode_table.json numbers it: one
32-bit word, opcode in bits 31:24, most significant byte at the lowest address (R8, R63). -/
def decodeTableWord (nbits w : Nat) : Option Instr :=
  match decode (bytesOfTableWord (tableWord nbits w)) with
  | .instr i => some i
  | .illegalOpcode => none
  | .truncated => none

end Sys2Proof
end

