-- ==== Sys2Proof/Machine/State.lean ====
section
/-! DEFINITION. The state of the core (10_state.md R25), the run parameters it carries (00_scope.md R6), and the
reset state (R24). -/

namespace Sys2Proof.Machine

/-- The run state (R19). The pattern `0b11` is never produced and has no value here (U16). -/
inductive Mode where
  | running
  | halted
  | faulted
  deriving DecidableEq, Repr

/-- The four synchronous faults of the core (60_exceptions.md R130). Raising one is a next state, not a stop of the
model (R136, log entry 4). -/
inductive FaultKind where
  | illegalOpcode
  | divisionByZero
  | registerIndexOutOfRange
  | truncatedProgram
  deriving DecidableEq, Repr

/-- The content of `fault_cause` (R20): no fault since reset, or the fault that was raised. Codes 5 to 7 are never
produced and have no value here (U16). -/
inductive FaultCause where
  | noFault
  | raised (f : FaultKind)
  deriving DecidableEq, Repr

/-- Program memory: address and byte, addresses strictly rising, no byte equal to `Config.unlistedByte`. -/
abbrev Memory := List Host.Cell

/-- The five items of R25, and the run parameters `PROG` and `PROG_LEN` of R6 (log entries 1 and 3). -/
structure State where
  /-- `x[0]` to `x[31]` (R10, R11). -/
  x : Vector Word 32
  /-- The program counter, a byte address (R14). -/
  pc : Word
  /-- The remainder register (R18). -/
  rem : Word
  /-- The run-state register (R19). -/
  mode : Mode
  /-- The fault-cause register (R20). -/
  faultCause : FaultCause
  /-- `PROG`, the program memory (R30, R35), which no instruction writes (R31). -/
  prog : Memory
  /-- `PROG_LEN`, 0 to 2^31 (R6). -/
  progLen : Fin (Config.progLenMax + 1)
  deriving DecidableEq, Repr

/-- Right after reset of a fresh machine: registers zero, `RUNNING`, no fault, the empty program (R24, R160, R161). -/
def State.reset : State where
  x := Vector.replicate 32 0
  pc := 0
  rem := 0
  mode := .running
  faultCause := .noFault
  prog := []
  progLen := 0

/-- Why the model stops a step with a fault. The core's own four faults are not here: they are next states. -/
inductive Fault where
  /-- Raised by `memRead` for an address at or beyond `PROG_LEN`, where no byte exists (R35, R43). Safe: the model
  stops where the spec gives no byte. No step reaches it (R43). -/
  | readBeyondProgram (address : Nat)
  deriving DecidableEq, Repr

/-- Why the model gives no meaning. -/
inductive Refusal where
  /-- Raised by an arm of `exec` for an instruction without a meaning. Safe. No arm raises it: every instruction has
  its meaning. -/
  | notModelled (mnemonic : String)
  /-- Raised by `installProgram` for a program longer than 2^31 bytes, a launch the spec refuses (R6, R185, U15). Safe:
  the model does not run it. No step raises it. -/
  | programTooLong (length : Nat)
  deriving DecidableEq, Repr

end Sys2Proof.Machine
end

