-- ==== Sys2Proof/Machine/Ops.lean ====
section
/-! DEFINITION. The named operations over memory and registers, and taking a fault (20_memory.md, 10_state.md R13,
60_exceptions.md R136). -/

namespace Sys2Proof.Machine

/-- The outcome of a step of this machine. -/
abbrev Result := Host.Outcome State Fault Refusal

/-! ### Program memory -/

/-- The byte memory holds at an address; an unlisted address reads `Config.unlistedByte` (log entry 2). -/
def Memory.read : Memory → Nat → Byte
  | [], _ => Config.unlistedByte
  | (b, v) :: m, a => if a = b then v else Memory.read m a

/-- Memory with a byte set, in canonical form. Only loading a program uses it: the core writes no memory (R31). -/
def Memory.write : Memory → Nat → Byte → Memory
  | [], a, v => if v = Config.unlistedByte then [] else [(a, v)]
  | (b, w) :: m, a, v =>
    if a < b then
      if v = Config.unlistedByte then (b, w) :: m else (a, v) :: (b, w) :: m
    else if a = b then
      if v = Config.unlistedByte then m else (a, v) :: m
    else (b, w) :: Memory.write m a v

/-- Memory with consecutive bytes set from an address upward. -/
def Memory.writeBytes : Memory → Nat → List Byte → Memory
  | m, _, [] => m
  | m, a, v :: vs => Memory.writeBytes (Memory.write m a v) (a + 1) vs

/-- The memory that holds the given bytes from an address upward and nothing else. -/
def Memory.ofBytes : Nat → List Byte → Memory
  | _, [] => []
  | a, v :: vs => if v = Config.unlistedByte then Memory.ofBytes (a + 1) vs else (a, v) :: Memory.ofBytes (a + 1) vs

/-- The canonical form, every address at least `lo`. -/
def Memory.wfFrom : Nat → Memory → Bool
  | _, [] => true
  | lo, (a, v) :: m => decide (lo ≤ a) && decide (v ≠ Config.unlistedByte) && Memory.wfFrom (a + 1) m

/-- The canonical form: addresses strictly rising, no byte equal to what an unlisted address reads as. -/
def Memory.wf (m : Memory) : Bool := Memory.wfFrom 0 m

/-- Every listed address lies below a bound. -/
def Memory.below (n : Nat) (m : Memory) : Bool := m.all fun c => decide (c.1 < n)

/-- The instruction fetch's read of one byte, `MemRead(a, 1)` (R7, R30): defined below `PROG_LEN` only (R43). -/
def memRead (s : State) (a : Nat) : Except Fault Byte :=
  if a < s.progLen.val then .ok (Memory.read s.prog a) else .error (.readBeyondProgram a)

/-! ### Registers -/

/-- `x[r]` (R7, R11: no register is hardwired). -/
def State.reg (s : State) (r : RegNum) : Word := s.x[r]

/-- `x[r] <- v` (R7, R11). -/
def State.setReg (s : State) (r : RegNum) (v : Word) : State := { s with x := s.x.set r v }

/-- `pc <- v`. -/
def State.setPc (s : State) (v : Word) : State := { s with pc := v }

/-- `rem <- v` (R18). -/
def State.setRem (s : State) (v : Word) : State := { s with rem := v }

/-- `mode <- HALTED` (R19). -/
def State.halt (s : State) : State := { s with mode := .halted }

/-- The sequential advance over the four bytes of an instruction, `pc <- pc0 + 4` (R15). -/
def State.advance (s : State) : State := s.setPc (s.pc + 4)

/-! ### Faults -/

/-- Fault entry (R136): `mode <- FAULTED`, `fault_cause <- code`, and no other write; `x`, `rem` and `pc` stay as they
were at the start of the step (R137). There is no handler and no return (R139). -/
def State.raise (s : State) (f : FaultKind) : State :=
  { s with mode := .faulted, faultCause := .raised f }

/-! ### Loading a program from outside -/

/-- The length that makes room for `n` bytes from address `a`, never less than before and never above `PROG_LEN_MAX`. -/
def grownLength (old : Fin (Config.progLenMax + 1)) (a n : Nat) : Fin (Config.progLenMax + 1) :=
  ⟨min (max old.val (a + n)) Config.progLenMax, Nat.lt_succ_of_le (Nat.min_le_right _ _)⟩

/-- The state with the given bytes in program memory at `pc`, long enough to hold them and running, so that the next
step fetches them (R163, log entry 11). -/
def State.placeAtPc (s : State) (bytes : List Byte) : State :=
  { s with
    prog := Memory.writeBytes s.prog s.pc.toNat bytes
    progLen := grownLength s.progLen s.pc.toNat bytes.length
    mode := .running }

end Sys2Proof.Machine
end

