-- ==== Sys2Proof/Machine/Alu.lean ====
section
/-! DEFINITION. The integer ALU (43_arithmetic.md R101 to R108, 42_load_immediate.md R95), in the exact integer
arithmetic of the spec's pseudocode: compute in `Int`, then keep the low 32 bits. -/

namespace Sys2Proof.Machine

/-- `bv_32(n)`: the word whose unsigned value is `n mod 2^32` (R7). -/
def bv32 (n : Int) : Word := BitVec.ofInt 32 n

/-- `s(v)`: the signed, two's-complement value (R7; two's complement is K1, log entry 16). -/
def signed (v : Word) : Int := v.toInt

/-- `zext_32(imm)`: the immediate widened by zeros (R95, R54, C2). -/
def zext32 (imm : Imm16) : Word := imm.zeroExtend 32

/-- `ADD` (R101): overflow wraps (R108). -/
def aluAdd (a b : Word) : Word := bv32 (signed a + signed b)

/-- `SUB` (R102): first source minus second. -/
def aluSub (a b : Word) : Word := bv32 (signed a - signed b)

/-- `MUL` (R103): the low 32 bits of the exact product. -/
def aluMul (a b : Word) : Word := bv32 (signed a * signed b)

/-- `trunc(a / b)`, the exact quotient rounded toward zero (R104). -/
def quotient (a b : Word) : Int := (signed a).tdiv (signed b)

/-- `r := a - q * b` (R104; the formula is K2, log entry 16). -/
def remainder (a b : Word) : Int := signed a - quotient a b * signed b

/-- The quotient `DIV` writes (R104); -2147483648 / -1 wraps (R106, log entry 10). -/
def aluQuot (a b : Word) : Word := bv32 (quotient a b)

/-- The remainder `DIV` writes to `rem`: the two's-complement pattern (R107). -/
def aluRem (a b : Word) : Word := bv32 (remainder a b)

end Sys2Proof.Machine
end

