-- ==== Sys2Proof/Machine/Operands.lean ====
section
/-! DEFINITION. The operand forms: a register index, and the three register indices of format `RRR`
(30_encoding.md R51, R52, R55; 40_step_cycle.md R76). -/

namespace Sys2Proof.Machine

/-- The register a register-index byte selects: 0 to 31, never masked (R55). -/
def regOfByte (b : Byte) : Option RegNum :=
  if h : b.toNat < 32 then some ⟨b.toNat, h⟩ else none

/-- The operand of format `RI`: its index must be legal, else `RegisterIndexOutOfRange` and nothing else (R76, R133). -/
def withReg (d : Byte) (s : State) (k : RegNum → Result) : Result :=
  match regOfByte d with
  | some rd => k rd
  | none => .next (s.raise .registerIndexOutOfRange)

/-- The operands of format `RRR`: all three indices must be legal, checked before any register is read and whether or
not the instruction would use them, else `RegisterIndexOutOfRange` and nothing else (R76, R133). -/
def withRegs (a b d : Byte) (s : State) (k : RegNum → RegNum → RegNum → Result) : Result :=
  match regOfByte a, regOfByte b, regOfByte d with
  | some ra, some rb, some rd => k ra rb rd
  | _, _, _ => .next (s.raise .registerIndexOutOfRange)

end Sys2Proof.Machine
end

