-- ==== Sys2Proof/Machine/Arithmetic.lean ====
section
/-! DEFINITION. Integer arithmetic (43_arithmetic.md). Registers are read as they were at the start of the step and the
write comes last (R100). -/

namespace Sys2Proof.Machine

/-- `ADD rA, rB, rD` (R101). -/
def execAdd (ra rb rd : Byte) (s : State) : Result :=
  withRegs ra rb rd s fun a b d => .next (s.setReg d (aluAdd (s.reg a) (s.reg b))).advance

/-- `SUB rA, rB, rD` (R102). -/
def execSub (ra rb rd : Byte) (s : State) : Result :=
  withRegs ra rb rd s fun a b d => .next (s.setReg d (aluSub (s.reg a) (s.reg b))).advance

/-- `MUL rA, rB, rD` (R103). -/
def execMul (ra rb rd : Byte) (s : State) : Result :=
  withRegs ra rb rd s fun a b d => .next (s.setReg d (aluMul (s.reg a) (s.reg b))).advance

/-- `DIV rA, rB, rD` (R104): a zero divisor raises `DivisionByZero` and writes nothing else (R105); otherwise the
quotient goes to `x[rd]` and the remainder, of the old source values, to `rem` (R100, R107). -/
def execDiv (ra rb rd : Byte) (s : State) : Result :=
  withRegs ra rb rd s fun a b d =>
    if signed (s.reg b) = 0 then .next (s.raise .divisionByZero)
    else
      .next ((s.setReg d (aluQuot (s.reg a) (s.reg b))).setRem (aluRem (s.reg a) (s.reg b))).advance

end Sys2Proof.Machine
end

