-- ==== Sys2Proof/Machine/Flags.lean ====
section
/-! DEFINITION. The core has no flags, no condition codes and no predicates (10_state.md R21): nothing here writes state.
The one condition is the comparison of `GT`, used up in the step that makes it. -/

namespace Sys2Proof.Machine

/-- The comparison of `GT`: signed and strict (44_branch_gt.md R120). -/
def greater (a b : Word) : Bool := decide (signed a > signed b)

end Sys2Proof.Machine
end

