-- ==== Sys2Proof/Machine/Branch.lean ====
section
/-! DEFINITION. Control transfer (44_branch_gt.md). -/

namespace Sys2Proof.Machine

/-- `GT rA, rB, rT` (R120): if the first register is greater, signed and strict, `pc` takes all 32 bits of the third
(R121), an absolute byte address that is never checked (R122); otherwise `pc <- pc0 + 4`. -/
def execGt (ra rb rd : Byte) (s : State) : Result :=
  withRegs ra rb rd s fun a b t =>
    .next (if greater (s.reg a) (s.reg b) then s.setPc (s.reg t) else s.advance)

end Sys2Proof.Machine
end

