-- ==== Sys2Proof/Machine/LoadImmediate.lean ====
section
/-! DEFINITION. Load immediate (42_load_immediate.md). It reads no data memory (R96). -/

namespace Sys2Proof.Machine

/-- `LOAD rD, #n` (R95): `x[rd] <- zext_32(imm)`, `pc <- pc0 + 4`. -/
def execLoad (rd : Byte) (imm : Imm16) (s : State) : Result :=
  withReg rd s fun d => .next (s.setReg d (zext32 imm)).advance

end Sys2Proof.Machine
end

