-- ==== Sys2Proof/Machine/System.lean ====
section
/-! DEFINITION. The system instruction (41_system_hlt.md). -/

namespace Sys2Proof.Machine

/-- `HLT` (R90): `pc <- pc0 + 1`, `mode <- HALTED`; no register changes, no fault. -/
def execHlt (s : State) : Result := .next (s.setPc (s.pc + 1)).halt

end Sys2Proof.Machine
end

