-- ==== Sys2Proof/Machine/Dispatch.lean ====
section
/-! DEFINITION. Dispatch on the instruction (40_step_cycle.md R77). -/

namespace Sys2Proof.Machine

def exec (i : Instr) (s : State) : Host.Outcome State Fault Refusal :=
  match i with
  | .hlt => Sys2Proof.Machine.execHlt s
  | .load rd imm => Sys2Proof.Machine.execLoad rd imm s
  | .add ra rb rd => Sys2Proof.Machine.execAdd ra rb rd s
  | .sub ra rb rd => Sys2Proof.Machine.execSub ra rb rd s
  | .div ra rb rd => Sys2Proof.Machine.execDiv ra rb rd s
  | .mul ra rb rd => Sys2Proof.Machine.execMul ra rb rd s
  | .gt ra rb rd => Sys2Proof.Machine.execGt ra rb rd s

end Sys2Proof.Machine
end

