-- ==== Sys2Proof/Machine/Fetch.lean ====
section
/-! DEFINITION. The instruction fetch unit (20_memory.md R34, 40_step_cycle.md R72 to R75). -/

namespace Sys2Proof.Machine

/-- The termination check, unsigned: `u(pc) >= PROG_LEN` (R72). -/
def endOfProgram (s : State) : Bool := decide (s.progLen.val ≤ s.pc.toNat)

/-- The byte at `pc`, which is the opcode byte when `pc` lies in the program (R73). -/
def opcodeAtPc (s : State) : Byte := Memory.read s.prog s.pc.toNat

/-- Whether a byte is an opcode with operands, 1 to 6 (R53, R74). -/
def wantsOperands (b : Byte) : Bool :=
  match opcodeOfByte b with
  | some op => takesOperands op
  | none => false

/-- The addresses an instruction fetch reads, in order (R34): the opcode byte alone for `HLT`, an illegal opcode or a
truncated instruction; all four bytes otherwise. `u(pc0) + 4` is exact, with no 32-bit wrap (R75). -/
def instrAddrs (s : State) : List Nat :=
  if wantsOperands (opcodeAtPc s) && decide (s.pc.toNat + 4 ≤ s.progLen.val) then
    [s.pc.toNat, s.pc.toNat + 1, s.pc.toNat + 2, s.pc.toNat + 3]
  else [s.pc.toNat]

/-- The addresses a step puts on `imem_addr` (R34, R180): none when the core is not running or `pc` is at or beyond the
end (R72, R82). -/
def fetchAddrs (s : State) : List Nat :=
  match s.mode with
  | .running => if endOfProgram s then [] else instrAddrs s
  | .halted => []
  | .faulted => []

/-- The bytes at the given addresses, read one at a time (R44). -/
def readBytes (s : State) : List Nat → Except Fault (List Byte)
  | [] => .ok []
  | a :: as =>
    match memRead s a with
    | .error f => .error f
    | .ok b =>
      match readBytes s as with
      | .error f => .error f
      | .ok bs => .ok (b :: bs)

/-- The bytes of the instruction at `pc` that the core reads (R34, R74). -/
def fetch (s : State) : Except Fault (List Byte) := readBytes s (instrAddrs s)

end Sys2Proof.Machine
end

