-- ==== Sys2Proof/Machine/Cycle.lean ====
section
/-! DEFINITION. The fetch-decode-execute cycle (40_step_cycle.md R71). -/

namespace Sys2Proof.Machine

/-- Decode and dispatch of the fetched bytes: an illegal opcode and a truncated instruction raise their faults
(R131, R134), anything else runs. The index check and the divide check are the instructions' own (R76, R105). -/
def runBytes (bs : List Byte) (s : State) : Result :=
  match decode bs with
  | .instr i => exec i s
  | .illegalOpcode => .next (s.raise .illegalOpcode)
  | .truncated => .next (s.raise .truncatedProgram)

/-- A step that starts in `RUNNING`: the termination check, then fetch, decode and execute (R71 (b) to (g)). -/
def runCycle (s : State) : Result :=
  if endOfProgram s then .next s.halt
  else
    match fetch s with
    | .error f => .fault f
    | .ok bs => runBytes bs s

/-- `Step()` of R71: in `HALTED` and `FAULTED` a step changes nothing (R82). -/
def cycle (s : State) : Result :=
  match s.mode with
  | .running => runCycle s
  | .halted => .next s
  | .faulted => .next s

end Sys2Proof.Machine
end

