-- ==== Sys2Proof/Machine/Step.lean ====
section
/-! DEFINITION. One step of the machine, and placing an instruction where the next step fetches it. -/

namespace Sys2Proof.Machine

/-- One step (40_step_cycle.md R71). -/
def step (s : State) : Host.Outcome State Fault Refusal := cycle s

/-- The state with the instruction word `w`, numbered as spec/opcode_table.json numbers it, stored at `pc`
(log entry 11). It stands for the host's load of a program under reset (70_reset_and_hazards.md R163). -/
def State.withFetchWord (s : State) (nbits w : Nat) : State :=
  s.placeAtPc (bytesOfTableWord (tableWord nbits w))

end Sys2Proof.Machine
end

