-- ==== Sys2Proof/Machine/HostOps.lean ====
section
/-! DEFINITION. The step result and the host operations on the core (80_interfaces.md R181 to R183, 40_step_cycle.md R79,
R80, 70_reset_and_hazards.md R160, R163). -/

namespace Sys2Proof.Machine

/-- The step result (R79). -/
inductive StepResult where
  | continues
  | done
  | fault (c : FaultCause)
  deriving DecidableEq, Repr

/-- The result of a step that left this state: `Done` exactly in `HALTED`, `Fault` with the recorded cause exactly in
`FAULTED`, `Continue` exactly in `RUNNING` (R79). -/
def resultOf (s : State) : StepResult :=
  match s.mode with
  | .running => .continues
  | .halted => .done
  | .faulted => .fault s.faultCause

/-- Host operation `RESET`, from any state (R160, R181): every register to its reset value; the program memory and its
length are not the core's and stay (R161). -/
def resetCore (s : State) : State := { State.reset with prog := s.prog, progLen := s.progLen }

/-- Installing a program while reset is asserted, then releasing reset (R163). A program longer than 2^31 bytes is a
launch the spec refuses (R6, R185, U15). -/
def installProgram (bytes : List Byte) (s : State) : Except Refusal State :=
  if h : bytes.length ≤ Config.progLenMax then
    .ok { resetCore s with prog := Memory.ofBytes 0 bytes, progLen := ⟨bytes.length, Nat.lt_succ_of_le h⟩ }
  else .error (.programTooLong bytes.length)

/-- Host operation `STEP` (R182): one step, and its result. `none` if the model stops, which no step does. -/
def stepOp (s : State) : Option (State × StepResult) :=
  match step s with
  | .next t => some (t, resultOf t)
  | .fault _ => none
  | .refused _ => none

/-- Host operation `RUN` (R80, R183): steps until the result is not `Continue`, and that result. The run may never end
(R125, R167), so the model runs it under fuel from outside; `none` when the fuel is used up (log entry 13). -/
def runFuel : Nat → State → Option (State × StepResult)
  | 0, _ => none
  | fuel + 1, s =>
    match stepOp s with
    | none => none
    | some (t, .continues) => runFuel fuel t
    | some (t, r) => some (t, r)

end Sys2Proof.Machine
end

