-- ==== Sys2Proof/Machine/Ports.lean ====
section
/-! DEFINITION. The core as its host drives and sees it: the host operations with the port `result` kept beside the
state, and the values on the outputs (80_interfaces.md R180 to R184). -/

namespace Sys2Proof.Machine

/-- The core and what the port `result` shows: the result of the last step completed since the last reset, if there is
one (R180; reset gives no result, R81). `lastResult` and `resets` are no state of the core, whose state R25 closes
(log entry 5). -/
structure Session where
  core : State
  lastResult : Option StepResult
  /-- The number of resets so far, which only `Config.resultBeforeStep` reads (log entry 17). -/
  resets : Nat
  deriving DecidableEq, Repr

/-- A fresh machine under its host. -/
def Session.fresh : Session where
  core := State.reset
  lastResult := none
  resets := 0

/-- The session with a core that has just been reset. -/
def Session.restart (c : Session) (s : State) : Session where
  core := s
  lastResult := none
  resets := c.resets + 1

/-- The session after completed steps that left the core in `s`, the last of them with result `r` (R180). -/
def Session.complete (c : Session) (s : State) (r : StepResult) : Session :=
  { c with core := s, lastResult := some r }

/-- `RESET` (R181). -/
def Session.reset (c : Session) : Session := c.restart (resetCore c.core)

/-- Installing a program while reset is asserted, then releasing reset (R163). -/
def Session.install (bytes : List Byte) (c : Session) : Except Refusal Session :=
  match installProgram bytes c.core with
  | .ok s => .ok (c.restart s)
  | .error f => .error f

/-- `STEP` (R182): one step, whose result `result` then shows. -/
def Session.step (c : Session) : Option Session :=
  match stepOp c.core with
  | some (s, r) => some (c.complete s r)
  | none => none

/-- `RUN` (R183) under fuel (log entry 13): steps until the result is not `Continue`, which `result` then shows. -/
def Session.run (fuel : Nat) (c : Session) : Option Session :=
  match runFuel fuel c.core with
  | some (s, r) => some (c.complete s r)
  | none => none

/-- The encoding of `mode` (R19). -/
def modeCode : Mode → BitVec 2
  | .running => 0
  | .halted => 1
  | .faulted => 2

/-- The cause codes (R130). -/
def causeCode : FaultCause → BitVec 3
  | .noFault => 0
  | .raised .illegalOpcode => 1
  | .raised .divisionByZero => 2
  | .raised .registerIndexOutOfRange => 3
  | .raised .truncatedProgram => 4

/-- The two-bit pattern of a step result in encoding `e`: `e` modulo 4 for `Continue`, and for `Done` and `Fault` that
plus two different offsets of 1 to 3. The 24 numbers give the 24 encodings by three different patterns. -/
def resultCodeIn (e : Fin 24) : StepResult → BitVec 2
  | .continues => BitVec.ofNat 2 e.val
  | .done => BitVec.ofNat 2 (e.val + 1 + e.val / 4 % 3)
  | .fault _ => BitVec.ofNat 2 (e.val + 1 + (e.val / 4 + 1 + e.val / 12) % 3)

/-- The two-bit pattern of a step result on the port `result` (R180, log entry 17). Which fault it was is on the port
`fault_cause`. -/
def resultCode (r : StepResult) : BitVec 2 := resultCodeIn Config.resultEncoding r

/-- The port `result`: the result of the last completed step (R180), and a free value before there is one. -/
def Session.resultPort (c : Session) : BitVec 2 :=
  match c.lastResult with
  | some r => resultCode r
  | none => Config.resultBeforeStep c.resets

/-- The values on the core's outputs between steps (R180, R184). -/
structure Outputs where
  result : BitVec 2
  mode : BitVec 2
  faultCause : BitVec 3
  pcOut : Word
  remOut : Word
  dbgRegData : Word
  deriving DecidableEq, Repr

/-- The outputs between steps, given `dbg_reg_idx` (R180). Reading has no side effect (R184). -/
def outputs (dbgRegIdx : BitVec 5) (c : Session) : Outputs where
  result := c.resultPort
  mode := modeCode c.core.mode
  faultCause := causeCode c.core.faultCause
  pcOut := c.core.pc
  remOut := c.core.rem
  dbgRegData := c.core.reg dbgRegIdx.toFin

end Sys2Proof.Machine
end

