-- ==== Sys2Proof/Safety.lean ====
section
/-! DEFINITION. The terms claims use: the invariant of the core, what a step may leave unchanged, what raising a fault
does, which fault an instruction raises, and the step written as one function from the pseudocode of
40_step_cycle.md R71. -/

namespace Sys2Proof.Machine

/-! ### The invariant -/

/-- `fault_cause` holds a fault exactly in `FAULTED` (10_state.md R20), and program memory is in canonical form with
nothing listed at or beyond `PROG_LEN` (20_memory.md R35, log entry 2). -/
def State.Inv (s : State) : Prop :=
  (s.faultCause ≠ .noFault ↔ s.mode = .faulted) ∧
    Memory.wf s.prog = true ∧ Memory.below s.progLen.val s.prog = true

/-! ### What stays and what changes -/

/-- Every general register is unchanged. -/
def SameRegs (s t : State) : Prop := ∀ r : RegNum, t.reg r = s.reg r

/-- One general register takes a value and every other is unchanged. -/
def WritesReg (s t : State) (d : RegNum) (v : Word) : Prop :=
  t.reg d = v ∧ ∀ r : RegNum, r ≠ d → t.reg r = s.reg r

/-- Every byte of program memory, and its length, is unchanged. -/
def SameProgram (s t : State) : Prop :=
  t.progLen = s.progLen ∧ ∀ a : Nat, Memory.read t.prog a = Memory.read s.prog a

/-- The run state and the fault cause are unchanged. -/
def SameRun (s t : State) : Prop := t.mode = s.mode ∧ t.faultCause = s.faultCause

/-- `raise f` of 00_scope.md R7: `mode` and `fault_cause` are written, nothing else (60_exceptions.md R136, R137). -/
def Raises (s t : State) (f : FaultKind) : Prop :=
  t.mode = .faulted ∧ t.faultCause = .raised f ∧ SameRegs s t ∧ t.pc = s.pc ∧ t.rem = s.rem ∧ SameProgram s t

/-- The run goes on at a given address with nothing but `pc` changed. -/
def OnlyPc (s t : State) (pc' : Word) : Prop :=
  t.pc = pc' ∧ SameRegs s t ∧ t.rem = s.rem ∧ SameRun s t ∧ SameProgram s t

/-- One general register is written and the run goes on at the next instruction: what `LOAD`, `ADD`, `SUB` and `MUL`
leave (R95, R101 to R103). -/
def OnlyReg (s t : State) (d : RegNum) (v : Word) : Prop :=
  WritesReg s t d v ∧ t.pc = s.pc + 4 ∧ t.rem = s.rem ∧ SameRun s t ∧ SameProgram s t

/-- The ports `result` and `mode` agree: the pattern of `Continue`, `Done` or `Fault` stands on `result` exactly when
`mode` shows `RUNNING`, `HALTED` or `FAULTED` (40_step_cycle.md R79, 80_interfaces.md R180). -/
def PortsAgree (o : Outputs) : Prop :=
  (o.result = resultCode .continues ↔ o.mode = 0b00#2) ∧
    (o.result = resultCode .done ↔ o.mode = 0b01#2) ∧
    ∀ f : FaultCause, o.result = resultCode (.fault f) ↔ o.mode = 0b10#2

/-! ### The instruction at `pc` -/

/-- The byte `k` places after `pc`: `byte1`, `byte2`, `byte3` for `k` = 1, 2, 3. -/
def byteAt (s : State) (k : Nat) : Byte := Memory.read s.prog (s.pc.toNat + k)

/-- A step that starts here fetches an opcode byte: running, and `pc` inside the program (R72). -/
abbrev Fetches (s : State) : Prop := s.mode = .running ∧ s.pc.toNat < s.progLen.val

/-- How a step meets an opcode with operands: cut off by the end of the program it raises `TruncatedProgram`,
otherwise the instruction of the three bytes after the opcode runs (40_step_cycle.md R74, R75). -/
def StepMeets (op : Byte) (mk : Byte → Byte → Byte → Instr) : Prop :=
  ∀ s : State, Fetches s → byteAt s 0 = op →
    (s.progLen.val < s.pc.toNat + 4 → ∃ t, step s = .next t ∧ Raises s t .truncatedProgram) ∧
      (s.pc.toNat + 4 ≤ s.progLen.val → step s = exec (mk (byteAt s 1) (byteAt s 2) (byteAt s 3)) s)

/-- `x[n]` for a number read from an operand byte, when it names a register. -/
def regAt (s : State) (n : Nat) : Word := if h : n < 32 then s.reg ⟨n, h⟩ else 0

/-- The register file with `x[n] <- v`, when `n` names a register. -/
def withRegAt (s : State) (n : Nat) (v : Word) : State := if h : n < 32 then s.setReg ⟨n, h⟩ v else s

/-- An index byte of the instruction at `pc` is above 31: `byte1` for `LOAD`, any of the three otherwise (R76). -/
def badIndex (s : State) : Bool :=
  if byteAt s 0 = 1 then decide (31 < (byteAt s 1).toNat)
  else decide (31 < (byteAt s 1).toNat) || decide (31 < (byteAt s 2).toNat) || decide (31 < (byteAt s 3).toNat)

/-- The fault the instruction at `pc` raises, if any, first in the order of 60_exceptions.md R135. -/
def faultAt (s : State) : Option FaultKind :=
  if 6 < (byteAt s 0).toNat then some .illegalOpcode
  else if byteAt s 0 = 0 then none
  else if s.progLen.val < s.pc.toNat + 4 then some .truncatedProgram
  else if badIndex s then some .registerIndexOutOfRange
  else if byteAt s 0 = 4 ∧ regAt s (byteAt s 2).toNat = 0 then some .divisionByZero
  else none

/-! ### The step as one function -/

/-- `raise f` of R71, with its result. -/
def raiseR71 (s : State) (f : FaultKind) : State × StepResult :=
  ({ s with mode := .faulted, faultCause := .raised f }, .fault (.raised f))

/-- Part (g) of R71, the dispatch, on the numbers of the opcode and operand bytes, all index bytes legal. -/
def dispatchR71 (s : State) (op b1 b2 b3 : Nat) : State × StepResult :=
  let pc4 : Word := s.pc + 4
  let a : Int := (regAt s b1).toInt
  let b : Int := (regAt s b2).toInt
  if op = 1 then ({ withRegAt s b1 (BitVec.ofNat 32 (256 * b2 + b3)) with pc := pc4 }, .continues)
  else if op = 2 then ({ withRegAt s b3 (BitVec.ofInt 32 (a + b)) with pc := pc4 }, .continues)
  else if op = 3 then ({ withRegAt s b3 (BitVec.ofInt 32 (a - b)) with pc := pc4 }, .continues)
  else if op = 5 then ({ withRegAt s b3 (BitVec.ofInt 32 (a * b)) with pc := pc4 }, .continues)
  else if op = 4 then
    if b = 0 then raiseR71 s .divisionByZero
    else
      ({ withRegAt s b3 (BitVec.ofInt 32 (a.tdiv b)) with rem := BitVec.ofInt 32 (a - a.tdiv b * b), pc := pc4 },
        .continues)
  else ({ s with pc := if a > b then regAt s b3 else pc4 }, .continues)

/-- `Step()` written straight from the pseudocode of R71, state and result together, without the blocks the machine is
made of. -/
def stepR71 (s : State) : State × StepResult :=
  let pc0 := s.pc.toNat
  let op := (Memory.read s.prog pc0).toNat
  let b1 := (Memory.read s.prog (pc0 + 1)).toNat
  let b2 := (Memory.read s.prog (pc0 + 2)).toNat
  let b3 := (Memory.read s.prog (pc0 + 3)).toNat
  if s.mode = .faulted then (s, .fault s.faultCause)
  else if s.mode = .halted then (s, .done)
  else if s.progLen.val ≤ pc0 then ({ s with mode := .halted }, .done)
  else if 6 < op then raiseR71 s .illegalOpcode
  else if op = 0 then ({ s with pc := s.pc + 1, mode := .halted }, .done)
  else if s.progLen.val < pc0 + 4 then raiseR71 s .truncatedProgram
  else if op = 1 then if 31 < b1 then raiseR71 s .registerIndexOutOfRange else dispatchR71 s op b1 b2 b3
  else if 31 < b1 ∨ 31 < b2 ∨ 31 < b3 then raiseR71 s .registerIndexOutOfRange
  else dispatchR71 s op b1 b2 b3

end Sys2Proof.Machine
end

