-- ==== Sys2Proof/Certificates/Slice0/Obligations.lean ====
section
/-! DEFINITION. The statements about the Iridium core, for the provers. Each docstring names the rule or section of
spec/ it formalises. A statement the spec marks as its own decision (a row of 92_eei_decisions.md) or inference says
so. -/

open Sys2Proof Sys2Proof.Machine

/-! ### Encoding -/

/-- 30_encoding.md sections 2 and 4: the opcode map (R53) and where the fields lie (R51, R54); `HLT` consumes no operand
byte and 7 to 255 are illegal. That opcodes 1 to 6 with fewer than three bytes after them are truncated, whatever is
present, is 40_step_cycle.md R75 and 60_exceptions.md R134, all-or-nothing by the spec's own decision D19. -/
def Obligations.DecodeFollowsOpcodeMap : Prop :=
  (∀ rest : List Byte, decode (0 :: rest) = .instr .hlt) ∧
    (∀ (b1 b2 b3 : Byte) (rest : List Byte),
      decode (1 :: b1 :: b2 :: b3 :: rest) = .instr (.load b1 (b2 ++ b3)) ∧
        decode (2 :: b1 :: b2 :: b3 :: rest) = .instr (.add b1 b2 b3) ∧
        decode (3 :: b1 :: b2 :: b3 :: rest) = .instr (.sub b1 b2 b3) ∧
        decode (4 :: b1 :: b2 :: b3 :: rest) = .instr (.div b1 b2 b3) ∧
        decode (5 :: b1 :: b2 :: b3 :: rest) = .instr (.mul b1 b2 b3) ∧
        decode (6 :: b1 :: b2 :: b3 :: rest) = .instr (.gt b1 b2 b3)) ∧
    (∀ (op : Byte) (rest : List Byte), 1 ≤ op.toNat → op.toNat ≤ 6 → rest.length < 3 →
      decode (op :: rest) = .truncated) ∧
    ∀ (op : Byte) (rest : List Byte), 7 ≤ op.toNat → decode (op :: rest) = .illegalOpcode

/-- R54: the immediate of `LOAD` is `256 * byte2 + byte3`, and the register receives that value, 0 to 65535 and never
negative. -/
def Obligations.LoadImmediateIsBigEndianUnsigned : Prop :=
  ∀ (s : State) (d high low : Byte) (hd : d.toNat < 32),
    ∃ i t, decode [1, d, high, low] = .instr i ∧ exec i s = .next t ∧
      (t.reg ⟨d.toNat, hd⟩).toInt = 256 * high.toNat + low.toNat ∧
      (t.reg ⟨d.toNat, hd⟩).toNat = 256 * high.toNat + low.toNat

/-- 30_encoding.md sections 1 to 4: the encoder's bytes decode to the instruction they encode, for every instruction
with every operand at every value, whatever bytes follow them. -/
def Obligations.DecodeOfEncode : Prop :=
  ∀ (i : Instr) (rest : List Byte), decode (encode i ++ rest) = .instr i ∧ (encode i).length = 4

/-- 30_encoding.md sections 2 to 5: four bytes that decode to an instruction are its encoding, but for the operand bytes
of `HLT`, which are not read (decision D13). -/
def Obligations.EncodeOfDecode : Prop :=
  ∀ (b0 b1 b2 b3 : Byte) (i : Instr), decode [b0, b1, b2, b3] = .instr i →
    (i = .hlt ∧ b0 = 0) ∨ encode i = [b0, b1, b2, b3]

/-- 30_encoding.md section 4 (the opcode table): an instruction word is the instruction of a row exactly when its bits
under the row's mask are the row's match, and it is then some instruction of that opcode. -/
def Obligations.TableMatchSelectsInstruction : Prop :=
  ∀ (w : BitVec 32) (op : Opcode),
    (∃ i, decodeTableWord 32 w.toNat = some i ∧ i.opcode = op) ↔
      w &&& 0xFF000000#32 =
        match op with
        | .hlt => 0x00000000#32
        | .load => 0x01000000#32
        | .add => 0x02000000#32
        | .sub => 0x03000000#32
        | .div => 0x04000000#32
        | .mul => 0x05000000#32
        | .gt => 0x06000000#32

/-- 30_encoding.md section 5, decision D13: a step at an opcode byte 0 runs `HLT`, whatever bytes follow it and even if
none does. -/
def Obligations.HltIgnoresOperandBytes : Prop :=
  ∀ s : State, Fetches s → byteAt s 0 = 0 → step s = exec .hlt s ∧ fetchAddrs s = [s.pc.toNat]

/-- Words written out from the encodings of 30_encoding.md section 2 decode to the instructions they stand for; that a
cut-off `ADD` is truncated is 40_step_cycle.md R75, with the spec's own decision D19. -/
def Obligations.SpecWordsDecode : Prop :=
  decode [0x00, 0x00, 0x00, 0x00] = .instr .hlt ∧
    decode [0x01, 0x02, 0x01, 0x02] = .instr (.load 2 258) ∧
    decode [0x02, 0x01, 0x03, 0x06] = .instr (.add 1 3 6) ∧
    decode [0x04, 0x01, 0x02, 0x04] = .instr (.div 1 2 4) ∧
    decode [0x06, 0x01, 0x03, 0x03] = .instr (.gt 1 3 3) ∧
    decode [0x07, 0x00, 0x00, 0x00] = .illegalOpcode ∧
    decode [0x02, 0x28] = .truncated

/-- 80_interfaces.md section 3: the reference encoder emits four bytes per record, and record `k` occupies addresses
`4k` to `4k + 3`, opcode byte first. -/
def Obligations.EncoderLaysRecordsOut : Prop :=
  ∀ rs : List Record, (encodeRecords rs).length = 4 * rs.length ∧
    ∀ (k : Nat) (r : Record), rs[k]? = some r →
      (encodeRecords rs)[4 * k]? = some (opcodeByte r.opcode) ∧
        (encodeRecords rs)[4 * k + 1]? = some r.byte1 ∧
        (encodeRecords rs)[4 * k + 2]? = some r.byte2 ∧
        (encodeRecords rs)[4 * k + 3]? = some r.byte3

/-- 80_interfaces.md section 3 with 40_step_cycle.md section 2: a program the reference encoder made, installed and run
to the address of record `k`, there runs the instruction of record `k`. -/
def Obligations.EncodedProgramRunsInPlace : Prop :=
  ∀ (rs : List Record) (s s0 t : State) (k : Nat) (r : Record),
    installProgram (encodeRecords rs) s0 = .ok s → rs[k]? = some r →
      t.mode = .running → t.prog = s.prog → t.progLen = s.progLen → t.pc.toNat = 4 * k →
        step t = exec (recordInstr r) t

/-! ### Reset and the host operations -/

/-- 10_state.md section 8 (D24 for `mode` and `fault_cause`): every piece of state after reset, and the empty program. -/
def Obligations.ResetLeavesSpecValues : Prop :=
  (∀ r : RegNum, State.reset.reg r = 0) ∧ State.reset.pc = 0 ∧ State.reset.rem = 0 ∧
    State.reset.mode = .running ∧ State.reset.faultCause = .noFault ∧ State.reset.progLen.val = 0

/-- 70_reset_and_hazards.md section 1 (D17, D24): `RESET` from any state gives the reset values and changes no byte of
the program. -/
def Obligations.HostResetFromAnyState : Prop :=
  ∀ s : State, (∀ r : RegNum, (resetCore s).reg r = 0) ∧ (resetCore s).pc = 0 ∧ (resetCore s).rem = 0 ∧
    (resetCore s).mode = .running ∧ (resetCore s).faultCause = .noFault ∧ SameProgram s (resetCore s)

/-- 70_reset_and_hazards.md section 2 (D2): installing a program of at most 2^31 bytes under reset leaves the reset
values, the program's length and its bytes at addresses 0 upward; a longer program is refused. -/
def Obligations.InstallHoldsProgram : Prop :=
  ∀ (bytes : List Byte) (s : State),
    (bytes.length ≤ 2147483648 → ∃ t, installProgram bytes s = .ok t ∧
      (∀ r : RegNum, t.reg r = 0) ∧ t.pc = 0 ∧ t.rem = 0 ∧ t.mode = .running ∧ t.faultCause = .noFault ∧
      t.progLen.val = bytes.length ∧ ∀ (a : Nat) (b : Byte), bytes[a]? = some b → Memory.read t.prog a = b) ∧
    (2147483648 < bytes.length → installProgram bytes s = .error (.programTooLong bytes.length))

/-- The invariant of every step holds at reset (10_state.md sections 5 and 8). -/
def Obligations.ResetMeetsInv : Prop := State.reset.Inv

/-- The invariant of every step holds of every installed program under reset (log entry 2 names the canonical form). -/
def Obligations.InstalledProgramMeetsInv : Prop :=
  ∀ (bytes : List Byte) (s t : State), installProgram bytes s = .ok t → t.Inv

/-- 80_interfaces.md section 1 (D15, D17) and 10_state.md section 5: what the status outputs show for each value of
`mode` and `fault_cause`, and that the debug port shows the register it names. -/
def Obligations.OutputsShowState : Prop :=
  ∀ (idx : BitVec 5) (c : Session),
    (outputs idx c).mode =
        (match c.core.mode with | .running => 0b00#2 | .halted => 0b01#2 | .faulted => 0b10#2) ∧
      (outputs idx c).faultCause =
        (match c.core.faultCause with
          | .noFault => 0#3
          | .raised .illegalOpcode => 1#3
          | .raised .divisionByZero => 2#3
          | .raised .registerIndexOutOfRange => 3#3
          | .raised .truncatedProgram => 4#3) ∧
      (outputs idx c).pcOut = c.core.pc ∧ (outputs idx c).remOut = c.core.rem ∧
      (outputs idx c).dbgRegData = c.core.reg ⟨idx.toNat, idx.isLt⟩

/-- 80_interfaces.md section 1 with 40_step_cycle.md section 2 (R180, R79): after a `STEP`, and after a `RUN` that ends,
the port `result` shows the result of the last completed step, and it shows the pattern of `Continue`, `Done` or `Fault`
exactly when the port `mode` shows `RUNNING`, `HALTED` or `FAULTED` (`PortsAgree`); after a `RUN` that ends it is never
that of `Continue`. The patterns are free but for being three (log entry 17). -/
def Obligations.ResultPortShowsLastStep : Prop :=
  (∀ (c : Session) (idx : BitVec 5), ∃ c' r, c.step = some c' ∧ stepOp c.core = some (c'.core, r) ∧
    (outputs idx c').result = resultCode r ∧ PortsAgree (outputs idx c')) ∧
  ∀ (n : Nat) (c c' : Session) (idx : BitVec 5), c.run n = some c' →
    ∃ r, runFuel n c.core = some (c'.core, r) ∧ (outputs idx c').result = resultCode r ∧
      (outputs idx c').result ≠ resultCode .continues ∧ PortsAgree (outputs idx c')

/-- An instruction word stored by `withFetchWord` is what the next step decodes and runs, wherever the four bytes fit
below 2^31 (log entry 11; it stands for the load of 70_reset_and_hazards.md section 2). The memory's canonical form is
the premise that rules out states no run reaches. -/
def Obligations.FetchWordRunsNext : Prop :=
  ∀ (s : State) (w : Nat) (i : Instr), Memory.wf s.prog = true → s.pc.toNat + 4 ≤ 2147483648 →
    decodeTableWord 32 w = some i → step (s.withFetchWord 32 w) = exec i (s.withFetchWord 32 w)

/-! ### The step -/

/-- 40_step_cycle.md section 2: when the bytes at `pc` decode to an instruction, the step is `exec` of it. `HLT` needs
its opcode byte inside the program, every other instruction all four bytes; the step adds nothing around `exec`. -/
def Obligations.StepRunsDecodedInstruction : Prop :=
  ∀ (s : State) (i : Instr), Fetches s →
    decode [byteAt s 0, byteAt s 1, byteAt s 2, byteAt s 3] = .instr i →
      (i = .hlt ∨ s.pc.toNat + 4 ≤ s.progLen.val) → step s = exec i s

/-- R72: at or beyond the end of the program a step in `RUNNING` reads nothing, changes only `mode`, to `HALTED`, and
its result is `Done`. -/
def Obligations.EndOfProgramHalts : Prop :=
  ∀ s : State, s.mode = .running → s.progLen.val ≤ s.pc.toNat →
    fetchAddrs s = [] ∧ ∃ t, step s = .next t ∧ stepOp s = some (t, .done) ∧ t.mode = .halted ∧
      SameRegs s t ∧ t.pc = s.pc ∧ t.rem = s.rem ∧ t.faultCause = s.faultCause ∧ SameProgram s t

/-- 40_step_cycle.md section 2 and 60_exceptions.md section 5 (decisions D5, D14): in `HALTED` and `FAULTED` any number
of steps changes nothing and reads no memory; the result is `Done`, or the recorded fault again. -/
def Obligations.TerminalModesAreFixed : Prop :=
  ∀ s : State, s.mode ≠ .running →
    (∀ k : Nat, Sys2Proof.core.run k s = .next s) ∧ fetchAddrs s = [] ∧
      (s.mode = .halted → stepOp s = some (s, .done)) ∧
      (s.mode = .faulted → stepOp s = some (s, .fault s.faultCause))

/-- R56, R131: a byte above 6 at an opcode-fetch position raises `IllegalOpcode`, reading no operand byte, and nothing
else raises it. -/
def Obligations.IllegalOpcodeFault : Prop :=
  (∀ s : State, Fetches s → 7 ≤ (byteAt s 0).toNat →
    fetchAddrs s = [s.pc.toNat] ∧ ∃ t, step s = .next t ∧ Raises s t .illegalOpcode) ∧
  ∀ s t : State, s.mode = .running → step s = .next t → t.mode = .faulted → t.faultCause = .raised .illegalOpcode →
    Fetches s ∧ 7 ≤ (byteAt s 0).toNat

/-- 60_exceptions.md section 1 (R134): an instruction with operands that starts fewer than 4 bytes before the end raises
`TruncatedProgram`, and nothing else raises it: not `HLT`, and not `pc` at or beyond the end. That the step then reads
no operand byte is 20_memory.md R34 and 40_step_cycle.md R75, the spec's own decision D19. -/
def Obligations.TruncatedProgramFault : Prop :=
  (∀ s : State, Fetches s → 1 ≤ (byteAt s 0).toNat → (byteAt s 0).toNat ≤ 6 → s.progLen.val < s.pc.toNat + 4 →
    fetchAddrs s = [s.pc.toNat] ∧ ∃ t, step s = .next t ∧ Raises s t .truncatedProgram) ∧
  ∀ s t : State, s.mode = .running → step s = .next t → t.mode = .faulted →
    t.faultCause = .raised .truncatedProgram →
      Fetches s ∧ 1 ≤ (byteAt s 0).toNat ∧ (byteAt s 0).toNat ≤ 6 ∧ s.progLen.val < s.pc.toNat + 4

/-- 40_step_cycle.md section 2 and 60_exceptions.md section 1 (decision D8): `RegisterIndexOutOfRange` is raised exactly
when the instruction at `pc` is whole and one of its index bytes is above 31, whether or not the instruction would use
that register. -/
def Obligations.RegisterIndexFault : Prop :=
  ∀ s : State, s.mode = .running →
    ((∃ t, step s = .next t ∧ t.mode = .faulted ∧ t.faultCause = .raised .registerIndexOutOfRange) ↔
      (s.pc.toNat + 4 ≤ s.progLen.val ∧
        (((byteAt s 0).toNat = 1 ∧ 31 < (byteAt s 1).toNat) ∨
          (2 ≤ (byteAt s 0).toNat ∧ (byteAt s 0).toNat ≤ 6 ∧
            (31 < (byteAt s 1).toNat ∨ 31 < (byteAt s 2).toNat ∨ 31 < (byteAt s 3).toNat)))))

/-- 40_step_cycle.md section 2 (decision D8): `exec` of an instruction with an index byte above 31 raises
`RegisterIndexOutOfRange` and has none of the instruction's effect. -/
def Obligations.IllFormedInstructionFaults : Prop :=
  ∀ (i : Instr) (s : State), i.wellFormed = false →
    ∃ t, exec i s = .next t ∧ Raises s t .registerIndexOutOfRange

/-- R105, R132: `DIV` with a zero divisor raises `DivisionByZero` whatever the dividend, zero included, and writes
neither `x[rd]` nor `rem` nor `pc`; no other instruction raises it. -/
def Obligations.DivisionByZeroFault : Prop :=
  (∀ (s : State) (a b d : Byte) (_ : a.toNat < 32) (hb : b.toNat < 32) (_ : d.toNat < 32),
    (s.reg ⟨b.toNat, hb⟩).toInt = 0 → ∃ t, exec (.div a b d) s = .next t ∧ Raises s t .divisionByZero) ∧
  (∀ s : State, Fetches s → byteAt s 0 = 4 → s.pc.toNat + 4 ≤ s.progLen.val → badIndex s = false →
    (regAt s (byteAt s 2).toNat).toInt = 0 → ∃ t, step s = .next t ∧ Raises s t .divisionByZero) ∧
  ∀ (i : Instr) (s t : State), s.mode = .running → exec i s = .next t → t.mode = .faulted →
    t.faultCause = .raised .divisionByZero →
      ∃ (a b d : Byte) (hb : b.toNat < 32), i = .div a b d ∧ (s.reg ⟨b.toNat, hb⟩).toInt = 0

/-- 60_exceptions.md section 3 (decision D9): of the faults that hold for the instruction at `pc` the step raises the
first in the order IllegalOpcode, TruncatedProgram, RegisterIndexOutOfRange, DivisionByZero (`faultAt`), and if none
holds the step does not fault. -/
def Obligations.FaultPriority : Prop :=
  ∀ s : State, Fetches s → ∃ t, step s = .next t ∧
    match faultAt s with
    | some f => Raises s t f
    | none => t.mode ≠ .faulted ∧ t.faultCause = s.faultCause

/-- 60_exceptions.md section 4 (decision D7): a step that ends in `FAULTED` has left every register, `rem`, `pc` and
the program as they were. -/
def Obligations.FaultsArePrecise : Prop :=
  ∀ s t : State, step s = .next t → t.mode = .faulted →
    SameRegs s t ∧ t.pc = s.pc ∧ t.rem = s.rem ∧ SameProgram s t

/-- R31: the core never writes memory. Every byte of program memory, and its length, is as before after a step and
after `exec` of any instruction. -/
def Obligations.CoreNeverWritesMemory : Prop :=
  (∀ s t : State, step s = .next t → SameProgram s t) ∧
    ∀ (i : Instr) (s t : State), exec i s = .next t → SameProgram s t

/-- R43: the core never reads an address at or beyond `PROG_LEN`: no address of a step's fetch lies there, and no step
stops on such a read. -/
def Obligations.FetchStaysInsideProgram : Prop :=
  ∀ s : State, (∀ a ∈ fetchAddrs s, a < s.progLen.val) ∧
    ∀ a : Nat, step s ≠ .fault (.readBeyondProgram a)

/-- 40_step_cycle.md section 2 ("the total function `Step`"): every step, from every state, answers a next state; the
model stops on none. -/
def Obligations.EveryStepAnswersNext : Prop := ∀ s : State, ∃ t, step s = .next t

/-- R60: a step depends on program memory only through the bytes it fetches, which lie at `pc0 .. pc0+3`, and on
`PROG_LEN`: with any other memory that agrees at those addresses it does the same. -/
def Obligations.StepDependsOnFetchedBytesOnly : Prop :=
  ∀ (s : State) (m : Memory),
    (∀ a ∈ fetchAddrs s, s.pc.toNat ≤ a ∧ a ≤ s.pc.toNat + 3) ∧
      ((∀ a ∈ fetchAddrs s, Memory.read m a = Memory.read s.prog a) →
        ∀ t, step s = .next t → step { s with prog := m } = .next { t with prog := m })

/-- 40_step_cycle.md section 2: the machine built of fetch, decoder, operand checks and meanings takes, from every
state, the step the pseudocode of R71 takes, with its result. -/
def Obligations.StepRefinesPseudocode : Prop :=
  ∀ s : State, step s = .next (stepR71 s).1 ∧ stepOp s = some (stepR71 s)

/-- 40_step_cycle.md section 2 (R79): the three step results, when each is given, and the `mode` each leaves. Which fault
a step raises (`faultAt`) rests on the spec's own decisions D8 (index check, R76) and D9 (priority, 60_exceptions.md
R135). -/
def Obligations.StepResultFollowsMode : Prop :=
  ∀ s : State, ∃ t r, step s = .next t ∧ stepOp s = some (t, r) ∧
    (r = .done ↔
      s.mode = .halted ∨ (s.mode = .running ∧ (s.progLen.val ≤ s.pc.toNat ∨ byteAt s 0 = 0))) ∧
    (∀ c, r = .fault c ↔
      (s.mode = .faulted ∧ c = s.faultCause) ∨
        (Fetches s ∧ ∃ f, faultAt s = some f ∧ c = .raised f)) ∧
    (r = .continues ↔ Fetches s ∧ byteAt s 0 ≠ 0 ∧ faultAt s = none) ∧
    (t.mode = .halted ↔ r = .done) ∧ (t.mode = .faulted ↔ r = .fault t.faultCause) ∧
    (t.mode = .running ↔ r = .continues)

/-- 10_state.md section 5 (decisions D5, D6) and log entry 2: every step keeps the invariant, from every state that
meets it: a fault is recorded exactly in `FAULTED`, and program memory stays canonical and inside `PROG_LEN`. -/
def Obligations.StepKeepsInv : Prop :=
  ∀ s t : State, s.Inv → step s = .next t → t.Inv

/-- 10_state.md section 5 (R18): `rem` is written only by a `DIV` that does not fault; every other step keeps it; no
instruction reads it: with any other `rem` the step does the same to everything else; and it is 0 at reset. The value
`DIV` writes is that of 43_arithmetic.md section DIV: the remainder formula K2 (log entry 16), as a 32-bit pattern
(decision D11), of the old source values (decision D12). -/
def Obligations.RemWrittenByDivOnlyAndNeverRead : Prop :=
  State.reset.rem = 0 ∧
  (∀ s t : State, step s = .next t →
    t.rem =
      if Fetches s ∧ byteAt s 0 = 4 ∧ faultAt s = none then
        BitVec.ofInt 32 ((regAt s (byteAt s 1).toNat).toInt -
          (regAt s (byteAt s 1).toNat).toInt.tdiv (regAt s (byteAt s 2).toNat).toInt *
            (regAt s (byteAt s 2).toNat).toInt)
      else s.rem) ∧
  ∀ (s t : State) (v : Word), step s = .next t →
    ∃ t', step { s with rem := v } = .next t' ∧ { t' with rem := t.rem } = t

/-- R77: the opcode selects exactly one instruction; no step writes more than one general register; only `DIV` writes
`rem`; only `GT` gives `pc` a value other than `pc0`, `pc0 + 1` and `pc0 + 4`. -/
def Obligations.DispatchSelectsOneEffect : Prop :=
  (∀ s : State, Fetches s → (byteAt s 0 = 0 ∨ s.pc.toNat + 4 ≤ s.progLen.val) → (byteAt s 0).toNat ≤ 6 →
    step s =
      match (byteAt s 0).toNat with
      | 0 => exec .hlt s
      | 1 => exec (.load (byteAt s 1) (byteAt s 2 ++ byteAt s 3)) s
      | 2 => exec (.add (byteAt s 1) (byteAt s 2) (byteAt s 3)) s
      | 3 => exec (.sub (byteAt s 1) (byteAt s 2) (byteAt s 3)) s
      | 4 => exec (.div (byteAt s 1) (byteAt s 2) (byteAt s 3)) s
      | 5 => exec (.mul (byteAt s 1) (byteAt s 2) (byteAt s 3)) s
      | _ => exec (.gt (byteAt s 1) (byteAt s 2) (byteAt s 3)) s) ∧
  ∀ (i : Instr) (s t : State), exec i s = .next t →
    (∃ d : RegNum, ∀ r : RegNum, r ≠ d → t.reg r = s.reg r) ∧
      (t.rem ≠ s.rem → i.opcode = .div) ∧
      (t.pc ≠ s.pc → t.pc ≠ s.pc + 1 → t.pc ≠ s.pc + 4 → i.opcode = .gt)

/-- 10_state.md section 3 and 40_step_cycle.md section 2 (decision D7 for faults): the value of `pc` after every
step. -/
def Obligations.NextPcTable : Prop :=
  ∀ s t : State, step s = .next t →
    t.pc =
      if ¬ Fetches s ∨ faultAt s ≠ none then s.pc
      else if byteAt s 0 = 0 then s.pc + 1
      else if byteAt s 0 = 6 ∧
          (regAt s (byteAt s 1).toNat).toInt > (regAt s (byteAt s 2).toNat).toInt then
        regAt s (byteAt s 3).toNat
      else s.pc + 4

/-- 10_state.md section 3 (an inference of the spec): the sequential advance of `pc` never wraps around. After a step
that fetches without a fault and is no `GT`, `pc` is `pc0 + 1` or `pc0 + 4` as a number, at most `PROG_LEN`. -/
def Obligations.PcAdvanceNeverWraps : Prop :=
  ∀ s t : State, Fetches s → faultAt s = none → byteAt s 0 ≠ 6 → step s = .next t →
    t.pc.toNat = s.pc.toNat + (if byteAt s 0 = 0 then 1 else 4) ∧ t.pc.toNat ≤ s.progLen.val

/-! ### The instructions: effect, frame, faults, and how a step meets them -/

/-- R90: `HLT` stops the machine at `pc0 + 1`, writing `pc` and `mode` only; it has no fault and needs no operand byte,
even as the last byte of the program; its step gives `Done`, and a step after it changes nothing and gives `Done`
again. -/
def Obligations.HltEffect : Prop :=
  (∀ s : State, ∃ t, exec .hlt s = .next t ∧ t.pc = s.pc + 1 ∧ t.mode = .halted ∧ SameRegs s t ∧ t.rem = s.rem ∧
    t.faultCause = s.faultCause ∧ SameProgram s t) ∧
  ∀ s : State, Fetches s → byteAt s 0 = 0 →
    step s = exec .hlt s ∧ ∃ t, stepOp s = some (t, .done) ∧ stepOp t = some (t, .done)

/-- R95: `LOAD` writes the zero-extended immediate to `x[rd]` and advances `pc` by 4; its faults are
`TruncatedProgram`, else `RegisterIndexOutOfRange`. -/
def Obligations.LoadEffect : Prop :=
  (∀ (s : State) (d : Byte) (imm : Imm16) (hd : d.toNat < 32),
    ∃ t, exec (.load d imm) s = .next t ∧ OnlyReg s t ⟨d.toNat, hd⟩ (imm.zeroExtend 32)) ∧
  (∀ (s : State) (d : Byte) (imm : Imm16), 31 < d.toNat →
    ∃ t, exec (.load d imm) s = .next t ∧ Raises s t .registerIndexOutOfRange) ∧
  StepMeets 1 fun b1 b2 b3 => .load b1 (b2 ++ b3)

/-- R101: `ADD` writes the low 32 bits of the exact sum to `x[rd]` and advances `pc` by 4; its faults are
`TruncatedProgram`, else `RegisterIndexOutOfRange`. -/
def Obligations.AddEffect : Prop :=
  (∀ (s : State) (a b d : Byte) (ha : a.toNat < 32) (hb : b.toNat < 32) (hd : d.toNat < 32),
    ∃ t, exec (.add a b d) s = .next t ∧
      OnlyReg s t ⟨d.toNat, hd⟩
        (BitVec.ofInt 32 ((s.reg ⟨a.toNat, ha⟩).toInt + (s.reg ⟨b.toNat, hb⟩).toInt))) ∧
  (∀ (s : State) (a b d : Byte), 31 < a.toNat ∨ 31 < b.toNat ∨ 31 < d.toNat →
    ∃ t, exec (.add a b d) s = .next t ∧ Raises s t .registerIndexOutOfRange) ∧
  StepMeets 2 .add

/-- R102: `SUB` writes the low 32 bits of the exact difference, first source minus second, to `x[rd]` and advances `pc`
by 4; its faults are those of `ADD`. -/
def Obligations.SubEffect : Prop :=
  (∀ (s : State) (a b d : Byte) (ha : a.toNat < 32) (hb : b.toNat < 32) (hd : d.toNat < 32),
    ∃ t, exec (.sub a b d) s = .next t ∧
      OnlyReg s t ⟨d.toNat, hd⟩
        (BitVec.ofInt 32 ((s.reg ⟨a.toNat, ha⟩).toInt - (s.reg ⟨b.toNat, hb⟩).toInt))) ∧
  (∀ (s : State) (a b d : Byte), 31 < a.toNat ∨ 31 < b.toNat ∨ 31 < d.toNat →
    ∃ t, exec (.sub a b d) s = .next t ∧ Raises s t .registerIndexOutOfRange) ∧
  StepMeets 3 .sub

/-- R103: `MUL` writes the low 32 bits of the exact product to `x[rd]` and advances `pc` by 4; its faults are those of
`ADD`. -/
def Obligations.MulEffect : Prop :=
  (∀ (s : State) (a b d : Byte) (ha : a.toNat < 32) (hb : b.toNat < 32) (hd : d.toNat < 32),
    ∃ t, exec (.mul a b d) s = .next t ∧
      OnlyReg s t ⟨d.toNat, hd⟩
        (BitVec.ofInt 32 ((s.reg ⟨a.toNat, ha⟩).toInt * (s.reg ⟨b.toNat, hb⟩).toInt))) ∧
  (∀ (s : State) (a b d : Byte), 31 < a.toNat ∨ 31 < b.toNat ∨ 31 < d.toNat →
    ∃ t, exec (.mul a b d) s = .next t ∧ Raises s t .registerIndexOutOfRange) ∧
  StepMeets 5 .mul

/-- 43_arithmetic.md section DIV (the remainder formula is the spec's own, K2 and log entry 16; D12 for the old source
values): with a divisor that is not zero `DIV` writes the quotient truncated toward zero to `x[rd]`, the remainder to
`rem`, and advances `pc` by 4; its other outcomes are `TruncatedProgram`, else `RegisterIndexOutOfRange`, else
`DivisionByZero`. -/
def Obligations.DivEffect : Prop :=
  (∀ (s : State) (a b d : Byte) (ha : a.toNat < 32) (hb : b.toNat < 32) (hd : d.toNat < 32),
    (s.reg ⟨b.toNat, hb⟩).toInt ≠ 0 →
      ∃ t, exec (.div a b d) s = .next t ∧
        WritesReg s t ⟨d.toNat, hd⟩
          (BitVec.ofInt 32 ((s.reg ⟨a.toNat, ha⟩).toInt.tdiv (s.reg ⟨b.toNat, hb⟩).toInt)) ∧
        t.rem =
          BitVec.ofInt 32 ((s.reg ⟨a.toNat, ha⟩).toInt -
            (s.reg ⟨a.toNat, ha⟩).toInt.tdiv (s.reg ⟨b.toNat, hb⟩).toInt * (s.reg ⟨b.toNat, hb⟩).toInt) ∧
        t.pc = s.pc + 4 ∧ SameRun s t ∧ SameProgram s t) ∧
  (∀ (s : State) (a b d : Byte) (_ : a.toNat < 32) (hb : b.toNat < 32) (_ : d.toNat < 32),
    (s.reg ⟨b.toNat, hb⟩).toInt = 0 → ∃ t, exec (.div a b d) s = .next t ∧ Raises s t .divisionByZero) ∧
  (∀ (s : State) (a b d : Byte), 31 < a.toNat ∨ 31 < b.toNat ∨ 31 < d.toNat →
    ∃ t, exec (.div a b d) s = .next t ∧ Raises s t .registerIndexOutOfRange) ∧
  StepMeets 4 .div

/-- R120: `GT` compares signed and strictly; taken, `pc` becomes all 32 bits of `x[rd]`, whatever they are; not taken,
`pc0 + 4`; nothing but `pc` changes; the faults are those of `ADD`, taken or not. -/
def Obligations.GtEffect : Prop :=
  (∀ (s : State) (a b d : Byte) (ha : a.toNat < 32) (hb : b.toNat < 32) (hd : d.toNat < 32),
    ∃ t, exec (.gt a b d) s = .next t ∧
      OnlyPc s t
        (if (s.reg ⟨a.toNat, ha⟩).toInt > (s.reg ⟨b.toNat, hb⟩).toInt then s.reg ⟨d.toNat, hd⟩ else s.pc + 4)) ∧
  (∀ (s : State) (a b d : Byte), 31 < a.toNat ∨ 31 < b.toNat ∨ 31 < d.toNat →
    ∃ t, exec (.gt a b d) s = .next t ∧ Raises s t .registerIndexOutOfRange) ∧
  StepMeets 6 .gt

/-! ### Laws of the arithmetic and of control flow -/

/-- 43_arithmetic.md, integer arithmetic laws (decision D4): `ADD`, `SUB` and `MUL` wrap modulo 2^32, and give the same
bits whether the operands are read as signed or as unsigned. -/
def Obligations.ArithmeticWrapsEitherView : Prop :=
  ∀ (s : State) (a b d : Byte) (ha : a.toNat < 32) (hb : b.toNat < 32) (hd : d.toNat < 32),
    (∃ t, exec (.add a b d) s = .next t ∧
      (t.reg ⟨d.toNat, hd⟩).toNat =
        ((s.reg ⟨a.toNat, ha⟩).toNat + (s.reg ⟨b.toNat, hb⟩).toNat) % 4294967296) ∧
    (∃ t, exec (.sub a b d) s = .next t ∧
      ((t.reg ⟨d.toNat, hd⟩).toNat : Int) =
        (((s.reg ⟨a.toNat, ha⟩).toNat : Int) - (s.reg ⟨b.toNat, hb⟩).toNat) % 4294967296) ∧
    (∃ t, exec (.mul a b d) s = .next t ∧
      (t.reg ⟨d.toNat, hd⟩).toNat =
        ((s.reg ⟨a.toNat, ha⟩).toNat * (s.reg ⟨b.toNat, hb⟩).toNat) % 4294967296)

/-- 43_arithmetic.md, results of `DIV` at every sign (an inference of the spec, with K2): with a divisor that is not zero
and no overflow, the quotient in `x[rd]` and the remainder in `rem`, both read signed, satisfy `q * b + r = a`,
`|r| < |b|`, and `r` is zero or has the sign of the dividend. -/
def Obligations.DivQuotientAndRemainderLaw : Prop :=
  ∀ (s : State) (a b d : Byte) (ha : a.toNat < 32) (hb : b.toNat < 32) (hd : d.toNat < 32),
    (s.reg ⟨b.toNat, hb⟩).toInt ≠ 0 →
    ¬ ((s.reg ⟨a.toNat, ha⟩).toInt = -2147483648 ∧ (s.reg ⟨b.toNat, hb⟩).toInt = -1) →
      ∃ t, exec (.div a b d) s = .next t ∧
        (t.reg ⟨d.toNat, hd⟩).toInt * (s.reg ⟨b.toNat, hb⟩).toInt + t.rem.toInt = (s.reg ⟨a.toNat, ha⟩).toInt ∧
        t.rem.toInt.natAbs < (s.reg ⟨b.toNat, hb⟩).toInt.natAbs ∧
        (0 ≤ (s.reg ⟨a.toNat, ha⟩).toInt → 0 ≤ t.rem.toInt) ∧
        ((s.reg ⟨a.toNat, ha⟩).toInt ≤ 0 → t.rem.toInt ≤ 0)

/-- 43_arithmetic.md section DIV (decision D10, log entry 10): -2147483648 / -1 does not fault; the quotient wraps to
`0x80000000`, `rem` is 0 and `pc` advances by 4. -/
def Obligations.DivOverflowWraps : Prop :=
  ∀ (s : State) (a b d : Byte) (ha : a.toNat < 32) (hb : b.toNat < 32) (hd : d.toNat < 32),
    s.reg ⟨a.toNat, ha⟩ = 0x80000000#32 → s.reg ⟨b.toNat, hb⟩ = 0xFFFFFFFF#32 →
      ∃ t, exec (.div a b d) s = .next t ∧ WritesReg s t ⟨d.toNat, hd⟩ 0x80000000#32 ∧
        t.rem = 0#32 ∧ t.pc = s.pc + 4 ∧ SameRun s t ∧ SameProgram s t

/-- 43_arithmetic.md section DIV (decision D11): a negative remainder is stored as its two's-complement pattern, which
reads unsigned as the remainder plus 2^32; any other is stored as it is. That the remainder is the truncating one is
K2 (log entry 16). -/
def Obligations.RemainderPattern : Prop :=
  ∀ (s : State) (a b d : Byte) (ha : a.toNat < 32) (hb : b.toNat < 32) (_ : d.toNat < 32),
    (s.reg ⟨b.toNat, hb⟩).toInt ≠ 0 →
      ∃ t, exec (.div a b d) s = .next t ∧
        (t.rem.toNat : Int) =
          if (s.reg ⟨a.toNat, ha⟩).toInt.tmod (s.reg ⟨b.toNat, hb⟩).toInt < 0 then
            (s.reg ⟨a.toNat, ha⟩).toInt.tmod (s.reg ⟨b.toNat, hb⟩).toInt + 4294967296
          else (s.reg ⟨a.toNat, ha⟩).toInt.tmod (s.reg ⟨b.toNat, hb⟩).toInt

/-- 43_arithmetic.md, operands and order of evaluation (decision D12): reads come before the write when registers
coincide. `ADD r, r, r` doubles, `SUB r, r, r` clears, and `DIV a, b, a` leaves in `rem` the remainder of the old
dividend, which is the truncating one (K2, log entry 16). -/
def Obligations.ReadsComeBeforeWrites : Prop :=
  ∀ (s : State) (a b : Byte) (ha : a.toNat < 32) (hb : b.toNat < 32),
    (∃ t, exec (.add a a a) s = .next t ∧
      (t.reg ⟨a.toNat, ha⟩).toNat = 2 * (s.reg ⟨a.toNat, ha⟩).toNat % 4294967296) ∧
    (∃ t, exec (.sub a a a) s = .next t ∧ t.reg ⟨a.toNat, ha⟩ = 0) ∧
    ((s.reg ⟨b.toNat, hb⟩).toInt ≠ 0 → ∃ t, exec (.div a b a) s = .next t ∧
      t.rem.toInt = (s.reg ⟨a.toNat, ha⟩).toInt.tmod (s.reg ⟨b.toNat, hb⟩).toInt)

/-- 44_branch_gt.md section GT (decisions D1, D2, D3): a taken `GT` to a register that holds a negative number sets `pc`
to that number plus 2^32, at or beyond the end of any program, and the next step ends the run normally. -/
def Obligations.NegativeTargetEndsRun : Prop :=
  ∀ (s : State) (a b d : Byte) (ha : a.toNat < 32) (hb : b.toNat < 32) (hd : d.toNat < 32),
    s.mode = .running → (s.reg ⟨a.toNat, ha⟩).toInt > (s.reg ⟨b.toNat, hb⟩).toInt →
      (s.reg ⟨d.toNat, hd⟩).toInt < 0 →
        ∃ t u, exec (.gt a b d) s = .next t ∧
          (t.pc.toNat : Int) = (s.reg ⟨d.toNat, hd⟩).toInt + 4294967296 ∧ t.progLen.val ≤ t.pc.toNat ∧
          stepOp t = some (u, .done) ∧ u.mode = .halted ∧ u.pc = t.pc ∧ u.faultCause = s.faultCause

/-- 44_branch_gt.md section GT and 40_step_cycle.md section 3: a `GT` whose condition holds and whose target is its own
address loops for ever: `RUN` under any fuel does not end, and the state never changes. -/
def Obligations.SelfJumpNeverEnds : Prop :=
  ∀ s : State, Fetches s → byteAt s 0 = 6 → s.pc.toNat + 4 ≤ s.progLen.val →
    (byteAt s 1).toNat < 32 → (byteAt s 2).toNat < 32 → (byteAt s 3).toNat < 32 →
    (regAt s (byteAt s 1).toNat).toInt > (regAt s (byteAt s 2).toNat).toInt →
    regAt s (byteAt s 3).toNat = s.pc →
      ∀ n : Nat, Sys2Proof.core.run n s = .next s ∧ runFuel n s = none

/-- 40_step_cycle.md section 3 (decision D23, and an inference of the spec): a `RUN` that ends is `STEP` repeated, ends
in the first state whose `mode` is not `RUNNING`, and presents the result of its last step. -/
def Obligations.RunIsRepeatedSteps : Prop :=
  ∀ (n : Nat) (s t : State) (r : StepResult), runFuel n s = some (t, r) →
    t.mode ≠ .running ∧ r = resultOf t ∧
      ∃ k, 1 ≤ k ∧ k ≤ n ∧ Sys2Proof.core.run k s = .next t ∧
        ∀ j, 1 ≤ j → j < k → ∃ u, Sys2Proof.core.run j s = .next u ∧ u.mode = .running

/-- 40_step_cycle.md section 3 and 80_interfaces.md section 2 (R183, R84; decision D23): a `RUN` completes when a step
returns `Done` or `Fault`, and presents that result. If the state after `k` steps is the first whose `mode` is not
`RUNNING`, then `RUN` with fuel for `k` steps or more (log entry 13) ends in it, with that last step's result. -/
def Obligations.RunCompletesAtFirstEnd : Prop :=
  ∀ (n k : Nat) (s t : State), 1 ≤ k → k ≤ n → Sys2Proof.core.run k s = .next t → t.mode ≠ .running →
    (∀ j, 1 ≤ j → j < k → ∃ u, Sys2Proof.core.run j s = .next u ∧ u.mode = .running) →
      runFuel n s = some (t, resultOf t) ∧ resultOf t ≠ .continues

/-- 40_step_cycle.md section 3 with log entry 13: fuel is outside the machine. A `RUN` that ends, ends alike under any
greater fuel. -/
def Obligations.RunEndsAlikeUnderMoreFuel : Prop :=
  ∀ (n k : Nat) (s : State) (e : State × StepResult), runFuel n s = some e → runFuel (n + k) s = some e
end

