-- ==== Sys2Proof/Laws/Decode.lean ====
section
/-! SUPPORT. The small lemmas of the decoder and the encoder: the opcode map both ways, and the immediate's bytes. -/

namespace Sys2Proof

@[simp] theorem opcodeOfByte_opcodeByte (op : Opcode) : opcodeOfByte (opcodeByte op) = some op := by
  cases op <;> rfl

/-- A byte above 6 is no opcode (30_encoding.md R56). -/
theorem opcodeOfByte_illegal {b : Byte} (h : 7 ≤ b.toNat) : opcodeOfByte b = none := by
  unfold opcodeOfByte
  split <;> first | omega | rfl

/-- A byte that names an opcode is that opcode's byte (R53). -/
theorem opcodeByte_of_opcodeOfByte {b : Byte} {op : Opcode} (h : opcodeOfByte b = some op) : opcodeByte op = b := by
  unfold opcodeOfByte at h
  split at h <;> simp at h <;> subst h <;> apply BitVec.eq_of_toNat_eq <;> simp_all [opcodeByte]

/-- The bytes 1 to 6 name the opcodes with operands (R53). -/
theorem opcodeOfByte_takesOperands {b : Byte} (h1 : 1 ≤ b.toNat) (h6 : b.toNat ≤ 6) :
    ∃ op, opcodeOfByte b = some op ∧ takesOperands op = true := by
  obtain h | h | h | h | h | h :
      b.toNat = 1 ∨ b.toNat = 2 ∨ b.toNat = 3 ∨ b.toNat = 4 ∨ b.toNat = 5 ∨ b.toNat = 6 := by omega
  all_goals simp [opcodeOfByte, h, takesOperands]

/-- The immediate's unsigned value (R54). -/
theorem immOfBytes_toNat (high low : Byte) : (immOfBytes high low).toNat = 256 * high.toNat + low.toNat := by
  have hl := low.isLt
  rw [immOfBytes, BitVec.toNat_append, ← Nat.shiftLeft_add_eq_or_of_lt hl, Nat.shiftLeft_eq, Nat.mul_comm]

theorem immOfBytes_immHigh_immLow (imm : Imm16) : immOfBytes (immHigh imm) (immLow imm) = imm := by
  apply BitVec.eq_of_toNat_eq
  have h := imm.isLt
  rw [immOfBytes_toNat]
  simp only [immHigh, immLow, BitVec.extractLsb'_toNat, Nat.shiftRight_eq_div_pow]
  omega

@[simp] theorem immHigh_immOfBytes (high low : Byte) : immHigh (immOfBytes high low) = high := by
  apply BitVec.eq_of_toNat_eq
  have hh := high.isLt
  have hl := low.isLt
  rw [immHigh, BitVec.extractLsb'_toNat, immOfBytes_toNat, Nat.shiftRight_eq_div_pow]
  omega

@[simp] theorem immLow_immOfBytes (high low : Byte) : immLow (immOfBytes high low) = low := by
  apply BitVec.eq_of_toNat_eq
  have hl := low.isLt
  rw [immLow, BitVec.extractLsb'_toNat, immOfBytes_toNat, Nat.shiftRight_eq_div_pow]
  omega

end Sys2Proof
end

