-- ==== Sys2Proof/Laws/Memory.lean ====
section
/-! SUPPORT. The laws of program memory: a read after a write, and that every memory operation keeps the canonical
form. -/

namespace Sys2Proof.Machine

theorem read_nil (a : Nat) : Memory.read [] a = Config.unlistedByte := rfl

/-- Below the lower bound of a canonical memory nothing is listed. -/
theorem read_of_wfFrom {m : Memory} {lo a : Nat} (h : Memory.wfFrom lo m = true) (ha : a < lo) :
    Memory.read m a = Config.unlistedByte := by
  induction m generalizing lo with
  | nil => rfl
  | cons c m ih =>
    obtain ⟨b, v⟩ := c
    simp only [Memory.wfFrom, Bool.and_eq_true, decide_eq_true_eq] at h
    have hne : a ≠ b := by omega
    simp only [Memory.read, hne, if_false]
    exact ih h.2 (by omega)

/-- A lower bound may be lowered. -/
theorem wfFrom_mono {m : Memory} {lo lo' : Nat} (h : Memory.wfFrom lo m = true) (hle : lo' ≤ lo) :
    Memory.wfFrom lo' m = true := by
  cases m with
  | nil => rfl
  | cons c m =>
    simp only [Memory.wfFrom, Bool.and_eq_true, decide_eq_true_eq] at h ⊢
    exact ⟨⟨by omega, h.1.2⟩, h.2⟩

theorem write_wfFrom {m : Memory} {lo a : Nat} (v : Byte) (h : Memory.wfFrom lo m = true) (ha : lo ≤ a) :
    Memory.wfFrom lo (Memory.write m a v) = true := by
  induction m generalizing lo with
  | nil => by_cases hv : v = Config.unlistedByte <;> simp [Memory.write, Memory.wfFrom, hv, ha]
  | cons c m ih =>
    obtain ⟨b, w⟩ := c
    have hc := h
    simp only [Memory.wfFrom, Bool.and_eq_true, decide_eq_true_eq] at hc
    by_cases hlt : a < b
    · by_cases hv : v = Config.unlistedByte
      · simpa [Memory.write, hlt, hv] using h
      · have hb : a + 1 ≤ b := hlt
        simp [Memory.write, hlt, hv, Memory.wfFrom, ha, hb, hc.1.2, hc.2]
    · by_cases heq : a = b
      · subst heq
        by_cases hv : v = Config.unlistedByte
        · simpa [Memory.write, hv] using wfFrom_mono hc.2 (by omega)
        · simp [Memory.write, hv, Memory.wfFrom, ha, hc.2]
      · have hgt : b + 1 ≤ a := by omega
        simp [Memory.write, hlt, heq, Memory.wfFrom, hc.1.1, hc.1.2, ih hc.2 hgt]

/-- A write keeps the canonical form. -/
theorem write_wf {m : Memory} (a : Nat) (v : Byte) (h : Memory.wf m = true) : Memory.wf (Memory.write m a v) = true :=
  write_wfFrom v h (Nat.zero_le a)

/-- Writing consecutive bytes keeps the canonical form. -/
theorem writeBytes_wf {m : Memory} (a : Nat) (vs : List Byte) (h : Memory.wf m = true) :
    Memory.wf (Memory.writeBytes m a vs) = true := by
  induction vs generalizing m a with
  | nil => exact h
  | cons v vs ih => exact ih (a + 1) (write_wf a v h)

theorem read_write_from {m : Memory} {lo : Nat} (a b : Nat) (v : Byte) (h : Memory.wfFrom lo m = true) :
    Memory.read (Memory.write m a v) b = if b = a then v else Memory.read m b := by
  induction m generalizing lo with
  | nil =>
    by_cases hv : v = Config.unlistedByte <;> by_cases hba : b = a <;> simp [Memory.write, Memory.read, hv, hba]
  | cons c m ih =>
    obtain ⟨c, w⟩ := c
    simp only [Memory.wfFrom, Bool.and_eq_true, decide_eq_true_eq] at h
    have hrest : ∀ {k}, k ≤ c → Memory.read m k = Config.unlistedByte := fun hk => read_of_wfFrom h.2 (by omega)
    by_cases hlt : a < c
    · have hac : a ≠ c := by omega
      have hra := hrest hlt.le
      by_cases hv : v = Config.unlistedByte <;> by_cases hba : b = a <;>
        simp_all [Memory.write, Memory.read]
    · by_cases heq : a = c
      · subst heq
        have hra := hrest (le_refl a)
        by_cases hv : v = Config.unlistedByte <;> by_cases hba : b = a <;>
          simp_all [Memory.write, Memory.read]
      · have hih := ih h.2
        by_cases hbc : b = c
        · have hba : ¬ b = a := by omega
          simp [Memory.write, Memory.read, hlt, heq, hbc]
          omega
        · simp [Memory.write, Memory.read, hlt, heq, hbc, hih]

/-- A read after a write gives the value written there, and a write leaves every other address alone. -/
theorem read_write {m : Memory} (a b : Nat) (v : Byte) (h : Memory.wf m = true) :
    Memory.read (Memory.write m a v) b = if b = a then v else Memory.read m b :=
  read_write_from a b v h

theorem ofBytes_wfFrom (a : Nat) (bs : List Byte) : Memory.wfFrom a (Memory.ofBytes a bs) = true := by
  induction bs generalizing a with
  | nil => rfl
  | cons v vs ih =>
    by_cases hv : v = Config.unlistedByte
    · simpa [Memory.ofBytes, hv] using wfFrom_mono (ih (a + 1)) (by omega)
    · simp [Memory.ofBytes, hv, Memory.wfFrom, ih]

/-- The memory made of a list of bytes is in canonical form. -/
theorem ofBytes_wf (a : Nat) (bs : List Byte) : Memory.wf (Memory.ofBytes a bs) = true :=
  wfFrom_mono (ofBytes_wfFrom a bs) (Nat.zero_le a)

/-- The memory made of a list of bytes reads as those bytes. -/
theorem read_ofBytes (a : Nat) (bs : List Byte) (k : Nat) (b : Byte) (h : bs[k]? = some b) :
    Memory.read (Memory.ofBytes a bs) (a + k) = b := by
  induction bs generalizing a k with
  | nil => simp at h
  | cons v vs ih =>
    cases k with
    | zero =>
      simp only [List.getElem?_cons_zero, Option.some.injEq] at h
      subst h
      by_cases hv : v = Config.unlistedByte
      · simpa [Memory.ofBytes, hv] using read_of_wfFrom (ofBytes_wfFrom (a + 1) vs) (by omega)
      · simp [Memory.ofBytes, hv, Memory.read]
    | succ k =>
      simp only [List.getElem?_cons_succ] at h
      have hk := ih (a + 1) k h
      rw [show a + 1 + k = a + (k + 1) by omega] at hk
      by_cases hv : v = Config.unlistedByte
      · simpa [Memory.ofBytes, hv] using hk
      · simp [Memory.ofBytes, hv, Memory.read, hk]

/-- The memory made of a list of bytes lists nothing at or beyond their end. -/
theorem ofBytes_below (a : Nat) (bs : List Byte) {n : Nat} (h : a + bs.length ≤ n) :
    Memory.below n (Memory.ofBytes a bs) = true := by
  induction bs generalizing a with
  | nil => rfl
  | cons v vs ih =>
    simp only [List.length_cons] at h
    have hvs := ih (a + 1) (by omega)
    by_cases hv : v = Config.unlistedByte
    · simpa [Memory.ofBytes, hv] using hvs
    · simp only [Memory.ofBytes, hv, if_false, Memory.below, List.all_cons, Bool.and_eq_true, decide_eq_true_eq]
      exact ⟨by omega, hvs⟩

end Sys2Proof.Machine
end

