-- ==== Sys2Proof/Laws/Operands.lean ====
section
/-! SUPPORT. Everything an operand form can do: the index is legal and names that register, or it raises
`RegisterIndexOutOfRange` (40_step_cycle.md R76). -/

namespace Sys2Proof.Machine

theorem regOfByte_legal {b : Byte} (h : b.toNat < 32) : regOfByte b = some ⟨b.toNat, h⟩ := by simp [regOfByte, h]

theorem regOfByte_illegal {b : Byte} (h : 31 < b.toNat) : regOfByte b = none := by
  have hn : ¬ b.toNat < 32 := by omega
  simp [regOfByte, hn]

theorem withReg_legal {d : Byte} (hd : d.toNat < 32) (s : State) (k : RegNum → Result) :
    withReg d s k = k ⟨d.toNat, hd⟩ := by simp [withReg, regOfByte_legal hd]

theorem withReg_illegal {d : Byte} (hd : 31 < d.toNat) (s : State) (k : RegNum → Result) :
    withReg d s k = .next (s.raise .registerIndexOutOfRange) := by simp [withReg, regOfByte_illegal hd]

theorem withRegs_legal {a b d : Byte} (ha : a.toNat < 32) (hb : b.toNat < 32) (hd : d.toNat < 32) (s : State)
    (k : RegNum → RegNum → RegNum → Result) :
    withRegs a b d s k = k ⟨a.toNat, ha⟩ ⟨b.toNat, hb⟩ ⟨d.toNat, hd⟩ := by
  simp [withRegs, regOfByte_legal ha, regOfByte_legal hb, regOfByte_legal hd]

theorem withRegs_illegal {a b d : Byte} (h : 31 < a.toNat ∨ 31 < b.toNat ∨ 31 < d.toNat) (s : State)
    (k : RegNum → RegNum → RegNum → Result) :
    withRegs a b d s k = .next (s.raise .registerIndexOutOfRange) := by
  unfold withRegs
  split
  · next ha hb hd =>
    rcases h with h | h | h <;> simp_all [regOfByte_illegal h]
  · rfl

end Sys2Proof.Machine
end

