-- ==== Sys2Proof/Laws/PerInstr.lean ====
section
/-! SUPPORT. A law of every instruction as syntax: the encoder emits four bytes, the first of them its opcode byte
(30_encoding.md R50, R53). -/

namespace Sys2Proof.Laws.EncodeShape

def Statement (i : Instr) : Prop := (encode i).length = Config.ilen ∧ (encode i).head? = some (opcodeByte i.opcode)

theorem hlt : Statement .hlt := ⟨rfl, rfl⟩
theorem load (rd : Byte) (imm : Imm16) : Statement (.load rd imm) := ⟨rfl, rfl⟩
theorem add (ra rb rd : Byte) : Statement (.add ra rb rd) := ⟨rfl, rfl⟩
theorem sub (ra rb rd : Byte) : Statement (.sub ra rb rd) := ⟨rfl, rfl⟩
theorem div (ra rb rd : Byte) : Statement (.div ra rb rd) := ⟨rfl, rfl⟩
theorem mul (ra rb rd : Byte) : Statement (.mul ra rb rd) := ⟨rfl, rfl⟩
theorem gt (ra rb rd : Byte) : Statement (.gt ra rb rd) := ⟨rfl, rfl⟩

end Sys2Proof.Laws.EncodeShape
end

