-- ==== Sys2Proof/Laws/State.lean ====
section
/-! SUPPORT. One lemma per field per update of State, so that no later proof unfolds a record update. -/

namespace Sys2Proof.Machine

/-- `PROG_LEN` is at most 2^31 (00_scope.md R6). -/
theorem progLen_le (s : State) : s.progLen.val ≤ 2147483648 := Nat.le_of_lt_succ s.progLen.isLt

@[simp] theorem setReg_pc (s : State) (r : RegNum) (v : Word) : (s.setReg r v).pc = s.pc := rfl
@[simp] theorem setReg_rem (s : State) (r : RegNum) (v : Word) : (s.setReg r v).rem = s.rem := rfl
@[simp] theorem setReg_mode (s : State) (r : RegNum) (v : Word) : (s.setReg r v).mode = s.mode := rfl
@[simp] theorem setReg_faultCause (s : State) (r : RegNum) (v : Word) : (s.setReg r v).faultCause = s.faultCause := rfl
@[simp] theorem setReg_prog (s : State) (r : RegNum) (v : Word) : (s.setReg r v).prog = s.prog := rfl
@[simp] theorem setReg_progLen (s : State) (r : RegNum) (v : Word) : (s.setReg r v).progLen = s.progLen := rfl

/-- A read after a write: the value written at the same register, the old one elsewhere (R7, R11). -/
theorem setReg_reg (s : State) (d r : RegNum) (v : Word) :
    (s.setReg d v).reg r = if r = d then v else s.reg r := by
  by_cases h : r = d
  · subst h
    simp [State.setReg, State.reg]
  · have hne : d.val ≠ r.val := fun e => h (Fin.ext e.symm)
    simp [State.setReg, State.reg, h, hne]

@[simp] theorem setReg_reg_same (s : State) (d : RegNum) (v : Word) : (s.setReg d v).reg d = v := by
  simp [setReg_reg]

theorem setReg_reg_other (s : State) {d r : RegNum} (v : Word) (h : r ≠ d) : (s.setReg d v).reg r = s.reg r := by
  simp [setReg_reg, h]

@[simp] theorem setPc_pc (s : State) (v : Word) : (s.setPc v).pc = v := rfl
@[simp] theorem setPc_reg (s : State) (v : Word) (r : RegNum) : (s.setPc v).reg r = s.reg r := rfl
@[simp] theorem setPc_rem (s : State) (v : Word) : (s.setPc v).rem = s.rem := rfl
@[simp] theorem setPc_mode (s : State) (v : Word) : (s.setPc v).mode = s.mode := rfl
@[simp] theorem setPc_faultCause (s : State) (v : Word) : (s.setPc v).faultCause = s.faultCause := rfl
@[simp] theorem setPc_prog (s : State) (v : Word) : (s.setPc v).prog = s.prog := rfl
@[simp] theorem setPc_progLen (s : State) (v : Word) : (s.setPc v).progLen = s.progLen := rfl

@[simp] theorem setRem_rem (s : State) (v : Word) : (s.setRem v).rem = v := rfl
@[simp] theorem setRem_reg (s : State) (v : Word) (r : RegNum) : (s.setRem v).reg r = s.reg r := rfl
@[simp] theorem setRem_pc (s : State) (v : Word) : (s.setRem v).pc = s.pc := rfl
@[simp] theorem setRem_mode (s : State) (v : Word) : (s.setRem v).mode = s.mode := rfl
@[simp] theorem setRem_faultCause (s : State) (v : Word) : (s.setRem v).faultCause = s.faultCause := rfl
@[simp] theorem setRem_prog (s : State) (v : Word) : (s.setRem v).prog = s.prog := rfl
@[simp] theorem setRem_progLen (s : State) (v : Word) : (s.setRem v).progLen = s.progLen := rfl

@[simp] theorem advance_pc (s : State) : s.advance.pc = s.pc + 4 := rfl
@[simp] theorem advance_reg (s : State) (r : RegNum) : s.advance.reg r = s.reg r := rfl
@[simp] theorem advance_rem (s : State) : s.advance.rem = s.rem := rfl
@[simp] theorem advance_mode (s : State) : s.advance.mode = s.mode := rfl
@[simp] theorem advance_faultCause (s : State) : s.advance.faultCause = s.faultCause := rfl
@[simp] theorem advance_prog (s : State) : s.advance.prog = s.prog := rfl
@[simp] theorem advance_progLen (s : State) : s.advance.progLen = s.progLen := rfl

@[simp] theorem halt_mode (s : State) : s.halt.mode = .halted := rfl
@[simp] theorem halt_reg (s : State) (r : RegNum) : s.halt.reg r = s.reg r := rfl
@[simp] theorem halt_pc (s : State) : s.halt.pc = s.pc := rfl
@[simp] theorem halt_rem (s : State) : s.halt.rem = s.rem := rfl
@[simp] theorem halt_faultCause (s : State) : s.halt.faultCause = s.faultCause := rfl
@[simp] theorem halt_prog (s : State) : s.halt.prog = s.prog := rfl
@[simp] theorem halt_progLen (s : State) : s.halt.progLen = s.progLen := rfl

@[simp] theorem raise_mode (s : State) (f : FaultKind) : (s.raise f).mode = .faulted := rfl
@[simp] theorem raise_faultCause (s : State) (f : FaultKind) : (s.raise f).faultCause = .raised f := rfl
@[simp] theorem raise_reg (s : State) (f : FaultKind) (r : RegNum) : (s.raise f).reg r = s.reg r := rfl
@[simp] theorem raise_pc (s : State) (f : FaultKind) : (s.raise f).pc = s.pc := rfl
@[simp] theorem raise_rem (s : State) (f : FaultKind) : (s.raise f).rem = s.rem := rfl
@[simp] theorem raise_prog (s : State) (f : FaultKind) : (s.raise f).prog = s.prog := rfl
@[simp] theorem raise_progLen (s : State) (f : FaultKind) : (s.raise f).progLen = s.progLen := rfl

@[simp] theorem placeAtPc_reg (s : State) (bs : List Byte) (r : RegNum) : (s.placeAtPc bs).reg r = s.reg r := rfl
@[simp] theorem placeAtPc_pc (s : State) (bs : List Byte) : (s.placeAtPc bs).pc = s.pc := rfl
@[simp] theorem placeAtPc_rem (s : State) (bs : List Byte) : (s.placeAtPc bs).rem = s.rem := rfl
@[simp] theorem placeAtPc_mode (s : State) (bs : List Byte) : (s.placeAtPc bs).mode = .running := rfl
@[simp] theorem placeAtPc_faultCause (s : State) (bs : List Byte) : (s.placeAtPc bs).faultCause = s.faultCause := rfl
@[simp] theorem placeAtPc_prog (s : State) (bs : List Byte) :
    (s.placeAtPc bs).prog = Memory.writeBytes s.prog s.pc.toNat bs := rfl
@[simp] theorem placeAtPc_progLen (s : State) (bs : List Byte) :
    (s.placeAtPc bs).progLen = grownLength s.progLen s.pc.toNat bs.length := rfl

end Sys2Proof.Machine
end

