-- ==== Sys2Proof/Laws/Step.lean ====
section
/-! SUPPORT. Everything a step can do, said once: fetch answers the bytes at its addresses, and a step is one of four
cases. -/

namespace Sys2Proof.Machine

/-- Reading addresses that lie inside the program answers their bytes. -/
theorem readBytes_inside (s : State) (as : List Nat) (h : ∀ a ∈ as, a < s.progLen.val) :
    readBytes s as = .ok (as.map (Memory.read s.prog)) := by
  induction as with
  | nil => rfl
  | cons a as ih =>
    have ha : a < s.progLen.val := h a (by simp)
    have hr := ih fun b hb => h b (by simp [hb])
    simp [readBytes, memRead, ha, hr]

/-- With `pc` inside the program the fetch answers the bytes at its addresses. -/
theorem fetch_inside (s : State) (h : s.pc.toNat < s.progLen.val) :
    fetch s = .ok ((instrAddrs s).map (Memory.read s.prog)) := by
  refine readBytes_inside s _ fun a ha => ?_
  unfold instrAddrs at ha
  split at ha
  · next hc =>
    simp only [Bool.and_eq_true, decide_eq_true_eq] at hc
    simp at ha
    omega
  · simp at ha
    omega

/-- A step is one of four cases (40_step_cycle.md R71, R72, R82). -/
theorem step_cases (s : State) :
    (s.mode = .halted ∧ step s = .next s) ∨ (s.mode = .faulted ∧ step s = .next s) ∨
      (s.mode = .running ∧ s.progLen.val ≤ s.pc.toNat ∧ step s = .next s.halt) ∨
        (s.mode = .running ∧ s.pc.toNat < s.progLen.val ∧
          step s = runBytes ((instrAddrs s).map (Memory.read s.prog)) s) := by
  cases hm : s.mode with
  | halted => exact .inl ⟨rfl, by simp [step, cycle, hm]⟩
  | faulted => exact .inr (.inl ⟨rfl, by simp [step, cycle, hm]⟩)
  | running =>
    rcases Nat.lt_or_ge s.pc.toNat s.progLen.val with h | h
    · have hn : ¬ s.progLen.val ≤ s.pc.toNat := by omega
      exact .inr (.inr (.inr ⟨rfl, h, by simp [step, cycle, hm, runCycle, endOfProgram, hn, fetch_inside s h]⟩))
    · exact .inr (.inr (.inl ⟨rfl, h, by simp [step, cycle, hm, runCycle, endOfProgram, h]⟩))

end Sys2Proof.Machine
end

