-- ==== Sys2Proof/Laws/Safety.lean ====
section
/-! SUPPORT. The small lemmas of the terms claims use. -/

namespace Sys2Proof.Machine

theorem sameProgram_of_eq {s t : State} (hp : t.prog = s.prog) (hl : t.progLen = s.progLen) : SameProgram s t :=
  ⟨hl, fun _ => by rw [hp]⟩

/-- Fault entry is `raise` of the spec's notation. -/
theorem raises_raise (s : State) (f : FaultKind) : Raises s (s.raise f) f :=
  ⟨rfl, rfl, fun _ => rfl, rfl, rfl, sameProgram_of_eq rfl rfl⟩

/-- Writing one register and advancing is what `OnlyReg` says. -/
theorem onlyReg_setReg_advance (s : State) (d : RegNum) (v : Word) : OnlyReg s (s.setReg d v).advance d v :=
  ⟨⟨setReg_reg_same _ _ _, fun _ h => setReg_reg_other _ _ h⟩, rfl, rfl, ⟨rfl, rfl⟩, sameProgram_of_eq rfl rfl⟩

theorem regAt_of_lt (s : State) {n : Nat} (h : n < 32) : regAt s n = s.reg ⟨n, h⟩ := by simp [regAt, h]

@[simp] theorem withRegAt_pc (s : State) (n : Nat) (v : Word) : (withRegAt s n v).pc = s.pc := by
  unfold withRegAt
  split <;> rfl
@[simp] theorem withRegAt_rem (s : State) (n : Nat) (v : Word) : (withRegAt s n v).rem = s.rem := by
  unfold withRegAt
  split <;> rfl
@[simp] theorem withRegAt_mode (s : State) (n : Nat) (v : Word) : (withRegAt s n v).mode = s.mode := by
  unfold withRegAt
  split <;> rfl
@[simp] theorem withRegAt_faultCause (s : State) (n : Nat) (v : Word) :
    (withRegAt s n v).faultCause = s.faultCause := by
  unfold withRegAt
  split <;> rfl
@[simp] theorem withRegAt_prog (s : State) (n : Nat) (v : Word) : (withRegAt s n v).prog = s.prog := by
  unfold withRegAt
  split <;> rfl
@[simp] theorem withRegAt_progLen (s : State) (n : Nat) (v : Word) : (withRegAt s n v).progLen = s.progLen := by
  unfold withRegAt
  split <;> rfl

/-- One step of a run. -/
theorem run_succ_of_next {s t : State} (k : Nat) (h : step s = .next t) :
    Sys2Proof.core.run (k + 1) s = Sys2Proof.core.run k t := by
  have hs : Sys2Proof.core.step s = .next t := h
  have hr := Host.Core.run.eq_2 Sys2Proof.core s k
  rw [hs] at hr
  exact hr

theorem stepOp_of_next {s t : State} (h : step s = .next t) : stepOp s = some (t, resultOf t) := by simp [stepOp, h]

end Sys2Proof.Machine
end

