-- ==== Sys2Proof/Laws/Ports.lean ====
section
/-! SUPPORT. The small lemmas of the session and its ports, and what each host operation on it can do. -/

namespace Sys2Proof.Machine

@[simp] theorem restart_core (c : Session) (s : State) : (c.restart s).core = s := rfl
@[simp] theorem restart_lastResult (c : Session) (s : State) : (c.restart s).lastResult = none := rfl
@[simp] theorem restart_resets (c : Session) (s : State) : (c.restart s).resets = c.resets + 1 := rfl

@[simp] theorem complete_core (c : Session) (s : State) (r : StepResult) : (c.complete s r).core = s := rfl
@[simp] theorem complete_lastResult (c : Session) (s : State) (r : StepResult) :
    (c.complete s r).lastResult = some r := rfl
@[simp] theorem complete_resets (c : Session) (s : State) (r : StepResult) : (c.complete s r).resets = c.resets := rfl
@[simp] theorem complete_resultPort (c : Session) (s : State) (r : StepResult) :
    (c.complete s r).resultPort = resultCode r := rfl

/-- `STEP` on a session is the step of its core. -/
theorem session_step_of_next {c : Session} {t : State} (h : step c.core = .next t) :
    c.step = some (c.complete t (resultOf t)) := by
  simp [Session.step, stepOp_of_next h]

/-- A session that `RUN` answers is that of a run of its core that ended. -/
theorem session_run_eq_some {c c' : Session} {n : Nat} (h : c.run n = some c') :
    ∃ t r, runFuel n c.core = some (t, r) ∧ c' = c.complete t r := by
  unfold Session.run at h
  split at h
  · next t r hr => exact ⟨t, r, hr, by simpa using h.symm⟩
  · cases h

/-- Every encoding gives the three results three different patterns. -/
theorem resultCodeIn_distinct (e : Fin 24) (f : FaultCause) :
    resultCodeIn e .continues ≠ resultCodeIn e .done ∧ resultCodeIn e .continues ≠ resultCodeIn e (.fault f) ∧
      resultCodeIn e .done ≠ resultCodeIn e (.fault f) := by
  revert e
  show ∀ e : Fin 24, resultCodeIn e .continues ≠ resultCodeIn e .done ∧
    resultCodeIn e .continues ≠ resultCodeIn e (.fault .noFault) ∧
      resultCodeIn e .done ≠ resultCodeIn e (.fault .noFault)
  decide

end Sys2Proof.Machine
end

