-- ==== Sys2Proof/Tests/Slice0.lean ====
section
/-! SUPPORT. Tests of the model: the well-formedness smoke test, decoding of words written out from the encoding
tables, one-step tests whose expected values come from 95_test_vectors.md, and for every statement with hypotheses a
concrete state and operands that meet them all. -/

namespace Sys2Proof.Tests

open Sys2Proof Sys2Proof.Machine

/-- The reset state with a program installed (70_reset_and_hazards.md R163). -/
def loaded (bytes : List Byte) : State :=
  match installProgram bytes State.reset with
  | .ok s => s
  | .error _ => State.reset

/-- A state with some registers set. -/
def withRegValues : List (RegNum × Word) → State → State
  | [], s => s
  | (r, v) :: rest, s => withRegValues rest (s.setReg r v)

/-- The state after one step; the state itself if the model stops. -/
def stepped (s : State) : State :=
  match step s with
  | .next t => t
  | .fault _ => s
  | .refused _ => s

/-- The state after one step of a one-instruction program with some registers set. -/
def after (bytes : List Byte) (regs : List (RegNum × Word)) : State := stepped (withRegValues regs (loaded bytes))

/-! ### Well-formedness: an ill-formed term for each check, and the boundary 31 -/

theorem test_wellFormed_refuses_each_index :
    Instr.wellFormed (.load 32 0) = false ∧
      Instr.wellFormed (.add 32 0 0) = false ∧ Instr.wellFormed (.add 0 32 0) = false ∧
      Instr.wellFormed (.add 0 0 32) = false ∧
      Instr.wellFormed (.sub 32 0 0) = false ∧ Instr.wellFormed (.sub 0 32 0) = false ∧
      Instr.wellFormed (.sub 0 0 32) = false ∧
      Instr.wellFormed (.div 32 0 0) = false ∧ Instr.wellFormed (.div 0 32 0) = false ∧
      Instr.wellFormed (.div 0 0 32) = false ∧
      Instr.wellFormed (.mul 32 0 0) = false ∧ Instr.wellFormed (.mul 0 32 0) = false ∧
      Instr.wellFormed (.mul 0 0 32) = false ∧
      Instr.wellFormed (.gt 32 0 0) = false ∧ Instr.wellFormed (.gt 0 32 0) = false ∧
      Instr.wellFormed (.gt 0 0 255) = false := by decide

theorem test_wellFormed_accepts_31 :
    Instr.wellFormed .hlt = true ∧ Instr.wellFormed (.load 31 0xFFFF) = true ∧
      Instr.wellFormed (.add 31 31 31) = true ∧ Instr.wellFormed (.gt 0 31 0) = true := by decide

/-! ### Decoding: words written out bit by bit from 30_encoding.md R51, R53, one per constructor -/

theorem test_decode_hlt : decode [0b00000000, 0b11001000, 0b00000111, 0b01100011] = .instr .hlt := by decide

theorem test_decode_load : decode [0b00000001, 0b00000010, 0b00000001, 0b00000010] = .instr (.load 2 258) := by decide

theorem test_decode_add : decode [0b00000010, 0b00000001, 0b00000011, 0b00000110] = .instr (.add 1 3 6) := by decide

theorem test_decode_sub : decode [0b00000011, 0b00000001, 0b00000011, 0b00000110] = .instr (.sub 1 3 6) := by decide

theorem test_decode_div : decode [0b00000100, 0b00000001, 0b00000010, 0b00000100] = .instr (.div 1 2 4) := by decide

theorem test_decode_mul : decode [0b00000101, 0b00000001, 0b00000011, 0b00000110] = .instr (.mul 1 3 6) := by decide

theorem test_decode_gt : decode [0b00000110, 0b00000001, 0b00000011, 0b00000010] = .instr (.gt 1 3 2) := by decide

/-- An index of 32 still decodes to the instruction (R63); 7 and 255 are illegal (R56); a cut-off `ADD` is truncated. -/
theorem test_decode_edges :
    decode [0x02, 0x01, 0x01, 0x20] = .instr (.add 1 1 32) ∧ decode [0x07] = .illegalOpcode ∧
      decode [0xFF, 0x00, 0x00, 0x00] = .illegalOpcode ∧ decode [0x02, 0x28] = .truncated ∧
      decode [0x00] = .instr .hlt := by decide

/-- Words numbered as spec/opcode_table.json numbers them: opcode in bits 31:24 (R63). -/
theorem test_table_words :
    decodeTableWord 32 0x00000000 = some .hlt ∧ decodeTableWord 32 0x01020102 = some (.load 2 258) ∧
      decodeTableWord 32 0x04010203 = some (.div 1 2 3) ∧ decodeTableWord 32 0x05010203 = some (.mul 1 2 3) ∧
      decodeTableWord 32 0x07000000 = none := by decide

/-- `encode` writes the bytes of the syntax table of R61. -/
theorem test_encode_load : encode (.load 3 500) = [1, 3, 1, 244] := by decide

/-! ### One step of each instruction, expected values from 95_test_vectors.md -/

/-- S7: `[0,0,0,0]` halts with `pc = 1`. -/
theorem test_hlt_advances_by_one :
    (after [0, 0, 0, 0] []).pc = 1 ∧ (after [0, 0, 0, 0] []).mode = .halted := by decide

/-- V-HLT-2: `HLT` as the only byte of the program is not truncated. -/
theorem test_hlt_last_byte :
    (after [0] []).pc = 1 ∧ (after [0] []).mode = .halted ∧ (after [0] []).faultCause = .noFault := by decide

/-- V-LOAD-4: the immediate is big-endian. -/
theorem test_load_big_endian : (after [1, 2, 1, 2] []).reg 2 = 258 ∧ (after [1, 2, 1, 2] []).pc = 4 := by decide

/-- V-LOAD-6: no sign extension. -/
theorem test_load_zero_extends : (after [1, 5, 128, 0] []).reg 5 = 0x00008000 := by decide

/-- V-ADD-4: positive overflow wraps. -/
theorem test_add_wraps :
    (after [2, 1, 2, 3] [(1, 0x7FFFFFFF), (2, 1)]).reg 3 = 0x80000000 ∧
      (after [2, 1, 2, 3] [(1, 0x7FFFFFFF), (2, 1)]).mode = .running := by decide

/-- V-ALIAS-1: source and destination coincide. -/
theorem test_add_alias : (after [2, 1, 1, 1] [(1, 6), (2, 3)]).reg 1 = 12 := by decide

/-- V-SUB-2: first source minus second. -/
theorem test_sub_order : (after [3, 1, 3, 6] [(1, 17), (3, 25)]).reg 6 = 0xFFFFFFF8 := by decide

/-- V-ALIAS-3: the destination is the second source. -/
theorem test_sub_alias :
    (after [3, 1, 2, 2] [(1, 6), (2, 3)]).reg 2 = 3 ∧ (after [3, 1, 2, 2] [(1, 6), (2, 3)]).reg 1 = 6 := by decide

/-- V-MUL-5: overflow into the sign bit. -/
theorem test_mul_wraps : (after [5, 1, 1, 2] [(1, 65535)]).reg 2 = 0xFFFE0001 := by decide

/-- V-MUL-4: mixed signs. -/
theorem test_mul_signs : (after [5, 1, 2, 3] [(1, 0xFFFFFFFD), (2, 7)]).reg 3 = 0xFFFFFFEB := by decide

/-- V-DIV-2: truncation toward zero, remainder with the sign of the dividend. -/
theorem test_div_truncates :
    (after [4, 3, 2, 4] [(3, 0xFFFFFFF9), (2, 2)]).reg 4 = 0xFFFFFFFD ∧
      (after [4, 3, 2, 4] [(3, 0xFFFFFFF9), (2, 2)]).rem = 0xFFFFFFFF := by decide

/-- V-DIV-14: the one overflow of `DIV` wraps, with no fault. -/
theorem test_div_overflow :
    (after [4, 4, 5, 7] [(4, 0x80000000), (5, 0xFFFFFFFF)]).reg 7 = 0x80000000 ∧
      (after [4, 4, 5, 7] [(4, 0x80000000), (5, 0xFFFFFFFF)]).rem = 0 ∧
      (after [4, 4, 5, 7] [(4, 0x80000000), (5, 0xFFFFFFFF)]).mode = .running := by decide

/-- V-GT-4: signed compare, taken to an absolute address. -/
theorem test_gt_taken : (after [6, 1, 2, 3] [(1, 1), (2, 0xFFFFFFFF), (3, 24)]).pc = 24 := by decide

/-- V-GT-5: signed compare, not taken. -/
theorem test_gt_not_taken : (after [6, 1, 2, 3] [(1, 0xFFFFFFFF), (2, 0), (3, 24)]).pc = 4 := by decide

/-! ### The step cycle and the faults -/

/-- V-END-1: with the empty program the first step ends the run. -/
theorem test_empty_program : (after [] []).mode = .halted ∧ (after [] []).pc = 0 := by decide

/-- V-F-3: an illegal opcode comes before truncation. -/
theorem test_illegal_before_truncated :
    (after [9] []).faultCause = .raised .illegalOpcode ∧ (after [9] []).mode = .faulted ∧ (after [9] []).pc = 0 := by
  decide

/-- V-F-6: truncation comes before the index check. -/
theorem test_truncated_before_index : (after [2, 40] []).faultCause = .raised .truncatedProgram := by decide

/-- V-F-9: the index check comes before the divide check. -/
theorem test_index_before_zero_divisor :
    (after [4, 1, 2, 99] []).faultCause = .raised .registerIndexOutOfRange := by decide

/-- V-DIV-Z3: 0 / 0 faults and nothing else changes. -/
theorem test_zero_divided_by_zero :
    (after [4, 0, 0, 0] []).faultCause = .raised .divisionByZero ∧ (after [4, 0, 0, 0] []).pc = 0 := by decide

/-- V-GT-F1: the target index is checked though the branch would not be taken. -/
theorem test_gt_checks_unused_index : (after [6, 0, 0, 32] []).faultCause = .raised .registerIndexOutOfRange := by
  decide

/-- A word placed by `withFetchWord` runs as the first step after reset. -/
theorem test_fetch_word :
    (stepped (State.reset.withFetchWord 32 0x01020102)).reg 2 = 258 ∧
      (stepped (State.reset.withFetchWord 32 0)).pc = 1 := by decide

/-- A fresh machine under its host with a program installed. -/
def session (bytes : List Byte) : Session :=
  match Session.fresh.install bytes with
  | .ok c => c
  | .error _ => Session.fresh

/-- V-F-10 as a `STEP` of the host: the cause and mode codes of R130 and R19, and the fault as the last result. -/
theorem test_outputs_after_fault : ∃ c, (session [4, 1, 2, 3]).step = some c ∧
    (outputs 0 c).faultCause = 2 ∧ (outputs 0 c).mode = 2 ∧ c.lastResult = some (.fault (.raised .divisionByZero)) :=
  ⟨_, rfl, by decide, by decide, by decide⟩

/-- V-END-2: the first step gives `Continue`, the second `Done`; a reset leaves no result (R81). -/
theorem test_results_of_steps : ∃ c d, (session [1, 31, 255, 255]).step = some c ∧ c.step = some d ∧
    c.lastResult = some .continues ∧ d.lastResult = some .done ∧ d.reset.lastResult = none :=
  ⟨_, _, rfl, rfl, by decide, by decide, by decide⟩

/-- The 24 numbers of `Config.resultEncoding` give 24 encodings, so that none is left out. -/
theorem test_result_encodings : (List.finRange 24).Pairwise fun e g =>
    (resultCodeIn e .continues, resultCodeIn e .done, resultCodeIn e (.fault .noFault)) ≠
      (resultCodeIn g .continues, resultCodeIn g .done, resultCodeIn g (.fault .noFault)) := by decide

/-- The pseudocode of R71 on the bytes of V-DIV-1. -/
theorem test_stepR71_div :
    (stepR71 (withRegValues [(1, 7), (2, 2)] (loaded [4, 1, 2, 4]))).1.reg 4 = 3 ∧
      (stepR71 (withRegValues [(1, 7), (2, 2)] (loaded [4, 1, 2, 4]))).2 = .continues := by decide

/-! ### Witnesses: every statement's hypotheses are met together by something concrete -/

/-- `DecodeFollowsOpcodeMap`: the boundaries of its ranges. -/
theorem witness_opcode_ranges :
    (1 ≤ (1#8).toNat ∧ (1#8).toNat ≤ 6 ∧ ([0, 0] : List Byte).length < 3) ∧
      (1 ≤ (6#8).toNat ∧ (6#8).toNat ≤ 6 ∧ ([] : List Byte).length < 3) ∧ 7 ≤ (7#8).toNat := by decide

/-- `LoadImmediateIsBigEndianUnsigned`, `LoadEffect`: the highest legal index and the lowest illegal one. -/
theorem witness_index_boundary : (31#8).toNat < 32 ∧ (0#8).toNat < 32 ∧ 31 < (32#8).toNat := by decide

/-- `AddEffect`, `SubEffect`, `MulEffect`, `GtEffect`, `ArithmeticWrapsEitherView`: legal indices, and an illegal one in
each place. -/
theorem witness_three_indices :
    ((31#8).toNat < 32 ∧ (0#8).toNat < 32 ∧ (31#8).toNat < 32) ∧
      (31 < (32#8).toNat ∨ 31 < (0#8).toNat ∨ 31 < (0#8).toNat) ∧
      (31 < (0#8).toNat ∨ 31 < (32#8).toNat ∨ 31 < (0#8).toNat) ∧
      (31 < (0#8).toNat ∨ 31 < (0#8).toNat ∨ 31 < (255#8).toNat) := by decide

/-- `EncodeOfDecode`: bytes of an instruction, and of `HLT` with operand bytes. -/
theorem witness_encodeOfDecode :
    decode [5, 1, 3, 6] = .instr (.mul 1 3 6) ∧ decode [0, 200, 7, 99] = .instr .hlt := by decide

/-- `HltIgnoresOperandBytes`, `HltEffect`: `HLT` as the last byte. -/
theorem witness_hlt : Fetches (loaded [0]) ∧ byteAt (loaded [0]) 0 = 0 := by decide

/-- `EncoderLaysRecordsOut`: a record at place 1. -/
theorem witness_record : ([⟨.load, 1, 0, 25⟩, ⟨.hlt, 9, 0, 0⟩] : List Record)[1]? = some ⟨.hlt, 9, 0, 0⟩ := by decide

/-- `EncodedProgramRunsInPlace`: the second record of a two-record program. -/
theorem witness_encodedProgram :
    ∃ s t : State, installProgram (encodeRecords [⟨.load, 1, 0, 25⟩, ⟨.add, 1, 1, 2⟩]) State.reset = .ok s ∧
      ([⟨.load, 1, 0, 25⟩, ⟨.add, 1, 1, 2⟩] : List Record)[1]? = some ⟨.add, 1, 1, 2⟩ ∧
      t.mode = .running ∧ t.prog = s.prog ∧ t.progLen = s.progLen ∧ t.pc.toNat = 4 * 1 :=
  ⟨loaded [1, 1, 0, 25, 2, 1, 1, 2], (loaded [1, 1, 0, 25, 2, 1, 1, 2]).setPc 4, rfl, rfl, rfl, rfl, rfl, rfl⟩

/-- `InstallHoldsProgram`, `InstalledProgramMeetsInv`: a program that fits. -/
theorem witness_install_fits :
    ([1, 2, 3] : List Byte).length ≤ 2147483648 ∧ ([1, 2, 3] : List Byte)[2]? = some 3 ∧
      ∃ t, installProgram [1, 2, 3] State.reset = .ok t := ⟨by decide, by decide, _, rfl⟩

/-- `InstallHoldsProgram`: a program one byte too long. -/
theorem witness_install_too_long : ∃ bytes : List Byte, 2147483648 < bytes.length :=
  ⟨List.replicate 2147483649 0, by rw [List.length_replicate]; decide⟩

/-- `FetchWordRunsNext`: at reset, and at the last place where four bytes fit. -/
theorem witness_fetchWord :
    Memory.wf State.reset.prog = true ∧ State.reset.pc.toNat + 4 ≤ 2147483648 ∧
      (State.reset.setPc 0x7FFFFFFC).pc.toNat + 4 ≤ 2147483648 ∧
      decodeTableWord 32 0x02010306 = some (.add 1 3 6) := by decide

/-- `StepRunsDecodedInstruction`: an instruction that ends exactly at `PROG_LEN`, and a lone `HLT`. -/
theorem witness_stepRunsDecoded :
    (Fetches (loaded [2, 1, 3, 6]) ∧
      decode [byteAt (loaded [2, 1, 3, 6]) 0, byteAt (loaded [2, 1, 3, 6]) 1, byteAt (loaded [2, 1, 3, 6]) 2,
        byteAt (loaded [2, 1, 3, 6]) 3] = .instr (.add 1 3 6) ∧
      (loaded [2, 1, 3, 6]).pc.toNat + 4 ≤ (loaded [2, 1, 3, 6]).progLen.val) ∧
    (Fetches (loaded [0]) ∧
      decode [byteAt (loaded [0]) 0, byteAt (loaded [0]) 1, byteAt (loaded [0]) 2, byteAt (loaded [0]) 3] =
        .instr .hlt) := by decide

/-- `EndOfProgramHalts`: `pc` exactly at the end. -/
theorem witness_endOfProgram :
    ((loaded [1, 2]).setPc 2).mode = .running ∧
      ((loaded [1, 2]).setPc 2).progLen.val ≤ ((loaded [1, 2]).setPc 2).pc.toNat := by decide

/-- `TerminalModesAreFixed`: a halted and a faulted state. -/
theorem witness_terminal :
    State.reset.halt.mode ≠ .running ∧ State.reset.halt.mode = .halted ∧
      (State.reset.raise .divisionByZero).mode ≠ .running ∧
      (State.reset.raise .divisionByZero).mode = .faulted := by decide

/-- `IllegalOpcodeFault`: the lowest illegal opcode, and a step that raises the fault. -/
theorem witness_illegalOpcode :
    (Fetches (loaded [7]) ∧ 7 ≤ (byteAt (loaded [7]) 0).toNat) ∧
      ∃ t, (loaded [7]).mode = .running ∧ step (loaded [7]) = .next t ∧ t.mode = .faulted ∧
        t.faultCause = .raised .illegalOpcode := ⟨by decide, (loaded [7]).raise .illegalOpcode, rfl, rfl, rfl, rfl⟩

/-- `TruncatedProgramFault` and the first clause of every `StepMeets`: one byte missing, lowest and highest opcode. -/
theorem witness_truncated :
    (Fetches (loaded [1, 0, 0]) ∧ 1 ≤ (byteAt (loaded [1, 0, 0]) 0).toNat ∧ (byteAt (loaded [1, 0, 0]) 0).toNat ≤ 6 ∧
      (loaded [1, 0, 0]).progLen.val < (loaded [1, 0, 0]).pc.toNat + 4) ∧
    (Fetches (loaded [6, 1, 2]) ∧ (byteAt (loaded [6, 1, 2]) 0).toNat ≤ 6 ∧
      (loaded [6, 1, 2]).progLen.val < (loaded [6, 1, 2]).pc.toNat + 4) ∧
    ∃ t, step (loaded [1, 0, 0]) = .next t ∧ t.mode = .faulted ∧ t.faultCause = .raised .truncatedProgram :=
  ⟨by decide, by decide, (loaded [1, 0, 0]).raise .truncatedProgram, rfl, rfl, rfl⟩

/-- The two clauses of `StepMeets` for each opcode with operands: whole, and cut off. -/
theorem witness_stepMeets :
    (∀ op ∈ ([1, 2, 3, 4, 5, 6] : List Byte), Fetches (loaded [op, 1, 2, 3]) ∧ byteAt (loaded [op, 1, 2, 3]) 0 = op ∧
      (loaded [op, 1, 2, 3]).pc.toNat + 4 ≤ (loaded [op, 1, 2, 3]).progLen.val) ∧
    ∀ op ∈ ([1, 2, 3, 4, 5, 6] : List Byte), Fetches (loaded [op, 1, 2]) ∧ byteAt (loaded [op, 1, 2]) 0 = op ∧
      (loaded [op, 1, 2]).progLen.val < (loaded [op, 1, 2]).pc.toNat + 4 := by decide

/-- `RegisterIndexFault`: both forms of the condition at the boundary 32. -/
theorem witness_registerIndex :
    (loaded [1, 32, 0, 1]).mode = .running ∧ (byteAt (loaded [1, 32, 0, 1]) 0).toNat = 1 ∧
      31 < (byteAt (loaded [1, 32, 0, 1]) 1).toNat ∧
      2 ≤ (byteAt (loaded [2, 1, 1, 32]) 0).toNat ∧ 31 < (byteAt (loaded [2, 1, 1, 32]) 3).toNat ∧
      (loaded [2, 1, 1, 32]).pc.toNat + 4 ≤ (loaded [2, 1, 1, 32]).progLen.val := by decide

/-- `IllFormedInstructionFaults`. -/
theorem witness_illFormed : Instr.wellFormed (.gt 0 0 32) = false := by decide

/-- `DivisionByZeroFault`, `DivEffect`: a zero divisor with a zero and with another dividend, and a divisor that is not
zero. -/
theorem witness_divisor :
    ((withRegValues [(1, 5)] State.reset).reg ⟨(2#8).toNat, by decide⟩).toInt = 0 ∧
      (State.reset.reg ⟨(0#8).toNat, by decide⟩).toInt = 0 ∧
      ((withRegValues [(2, 0xFFFFFFFF)] State.reset).reg ⟨(2#8).toNat, by decide⟩).toInt ≠ 0 := by decide

/-- `DivisionByZeroFault`, second and third clause: a `DIV` at `pc` with a zero divisor, and an instruction that raises
the fault. -/
theorem witness_divisionByZero :
    (Fetches (loaded [4, 1, 2, 3]) ∧ byteAt (loaded [4, 1, 2, 3]) 0 = 4 ∧
      (loaded [4, 1, 2, 3]).pc.toNat + 4 ≤ (loaded [4, 1, 2, 3]).progLen.val ∧
      badIndex (loaded [4, 1, 2, 3]) = false ∧
      (regAt (loaded [4, 1, 2, 3]) (byteAt (loaded [4, 1, 2, 3]) 2).toNat).toInt = 0) ∧
    ∃ t, State.reset.mode = .running ∧ exec (.div 1 2 3) State.reset = .next t ∧ t.mode = .faulted ∧
      t.faultCause = .raised .divisionByZero :=
  ⟨by decide, State.reset.raise .divisionByZero, rfl, rfl, rfl, rfl⟩

/-- `FaultPriority`: each case of the order, and none. -/
theorem witness_faultPriority :
    (Fetches (loaded [9]) ∧ faultAt (loaded [9]) = some .illegalOpcode) ∧
      (Fetches (loaded [2, 40]) ∧ faultAt (loaded [2, 40]) = some .truncatedProgram) ∧
      (Fetches (loaded [4, 1, 2, 99]) ∧ faultAt (loaded [4, 1, 2, 99]) = some .registerIndexOutOfRange) ∧
      (Fetches (loaded [4, 1, 2, 3]) ∧ faultAt (loaded [4, 1, 2, 3]) = some .divisionByZero) ∧
      (Fetches (loaded [1, 0, 200, 100]) ∧ faultAt (loaded [1, 0, 200, 100]) = none) := by decide

/-- `FaultsArePrecise`: a step into `FAULTED`. -/
theorem witness_faultsArePrecise : ∃ t, step (loaded [9]) = .next t ∧ t.mode = .faulted :=
  ⟨(loaded [9]).raise .illegalOpcode, rfl, rfl⟩

/-- `CoreNeverWritesMemory`, `NextPcTable`, `RemWrittenByDivOnlyAndNeverRead`, `DispatchSelectsOneEffect`,
`StepKeepsInv`: a step and an instruction that answer a next state. -/
theorem witness_next :
    (∃ t, step (loaded [0]) = .next t) ∧ (∃ t, exec .hlt State.reset = .next t) ∧ State.reset.Inv :=
  ⟨⟨_, rfl⟩, ⟨_, rfl⟩, by unfold State.Inv; decide⟩

/-- `StepDependsOnFetchedBytesOnly`: another memory that agrees at the fetched address alone. -/
theorem witness_fetchedBytes :
    (∀ a ∈ fetchAddrs (loaded [0, 5]), Memory.read [(1, 9)] a = Memory.read (loaded [0, 5]).prog a) ∧
      ∃ t, step (loaded [0, 5]) = .next t := ⟨by decide, _, rfl⟩

/-- `DispatchSelectsOneEffect`: the hypotheses for each opcode, `HLT` as a lone byte. -/
theorem witness_dispatch :
    (Fetches (loaded [0]) ∧ byteAt (loaded [0]) 0 = 0) ∧
      ∀ op ∈ ([0, 1, 2, 3, 4, 5, 6] : List Byte), Fetches (loaded [op, 1, 2, 3]) ∧
        (loaded [op, 1, 2, 3]).pc.toNat + 4 ≤ (loaded [op, 1, 2, 3]).progLen.val ∧
        (byteAt (loaded [op, 1, 2, 3]) 0).toNat ≤ 6 := by decide

/-- `DispatchSelectsOneEffect`: the premises of its last two clauses are met by a `DIV` and a taken `GT`. -/
theorem witness_dispatch_effects :
    (after [4, 1, 2, 3] [(1, 7), (2, 2)]).rem ≠ 0 ∧
      (after [6, 1, 0, 3] [(1, 1), (3, 24)]).pc ≠ 0 ∧ (after [6, 1, 0, 3] [(1, 1), (3, 24)]).pc ≠ 1 ∧
      (after [6, 1, 0, 3] [(1, 1), (3, 24)]).pc ≠ 4 := by decide

/-- `PcAdvanceNeverWraps`: a `LOAD` that ends at `PROG_LEN`, and `HLT`. -/
theorem witness_pcAdvance :
    (Fetches (loaded [1, 0, 0, 1]) ∧ faultAt (loaded [1, 0, 0, 1]) = none ∧ byteAt (loaded [1, 0, 0, 1]) 0 ≠ 6 ∧
      ∃ t, step (loaded [1, 0, 0, 1]) = .next t) ∧
    Fetches (loaded [0]) ∧ faultAt (loaded [0]) = none ∧ byteAt (loaded [0]) 0 = 0 :=
  ⟨⟨by decide, by decide, by decide, _, rfl⟩, by decide, by decide, by decide⟩

/-- `DivQuotientAndRemainderLaw`, `RemainderPattern`, `ReadsComeBeforeWrites`: -7 by 2. -/
theorem witness_divLaw :
    ((withRegValues [(3, 0xFFFFFFF9), (2, 2)] State.reset).reg ⟨(2#8).toNat, by decide⟩).toInt ≠ 0 ∧
      ¬ (((withRegValues [(3, 0xFFFFFFF9), (2, 2)] State.reset).reg ⟨(3#8).toNat, by decide⟩).toInt = -2147483648 ∧
        ((withRegValues [(3, 0xFFFFFFF9), (2, 2)] State.reset).reg ⟨(2#8).toNat, by decide⟩).toInt = -1) := by decide

/-- `DivOverflowWraps`. -/
theorem witness_divOverflow :
    (withRegValues [(4, 0x80000000), (5, 0xFFFFFFFF)] State.reset).reg ⟨(4#8).toNat, by decide⟩ = 0x80000000#32 ∧
      (withRegValues [(4, 0x80000000), (5, 0xFFFFFFFF)] State.reset).reg ⟨(5#8).toNat, by decide⟩ = 0xFFFFFFFF#32 := by
  decide

/-- `NegativeTargetEndsRun`: the operands of V-GT-P3, and the least negative number. -/
theorem witness_negativeTarget :
    (withRegValues [(1, 1), (2, 0xFFFFFFFF), (3, 0x80000000)] State.reset).mode = .running ∧
      ((withRegValues [(1, 1), (2, 0xFFFFFFFF), (3, 0x80000000)] State.reset).reg ⟨(1#8).toNat, by decide⟩).toInt >
        ((withRegValues [(1, 1), (2, 0xFFFFFFFF), (3, 0x80000000)] State.reset).reg ⟨(0#8).toNat, by decide⟩).toInt ∧
      ((withRegValues [(1, 1), (2, 0xFFFFFFFF), (3, 0x80000000)] State.reset).reg ⟨(2#8).toNat, by decide⟩).toInt < 0 ∧
      ((withRegValues [(1, 1), (2, 0xFFFFFFFF), (3, 0x80000000)] State.reset).reg ⟨(3#8).toNat, by decide⟩).toInt < 0 := by
  decide

/-- A `GT r1, r0, r3` at address 0 that jumps to itself. -/
def selfJump : State := withRegValues [(1, 1)] (loaded [6, 1, 0, 3])

/-- `SelfJumpNeverEnds`. -/
theorem witness_selfJump :
    Fetches selfJump ∧ byteAt selfJump 0 = 6 ∧ selfJump.pc.toNat + 4 ≤ selfJump.progLen.val ∧
      (byteAt selfJump 1).toNat < 32 ∧ (byteAt selfJump 2).toNat < 32 ∧ (byteAt selfJump 3).toNat < 32 ∧
      (regAt selfJump (byteAt selfJump 1).toNat).toInt > (regAt selfJump (byteAt selfJump 2).toNat).toInt ∧
      regAt selfJump (byteAt selfJump 3).toNat = selfJump.pc := by decide

/-- `RunIsRepeatedSteps`, `RunEndsAlikeUnderMoreFuel`: a run of one step that ends. -/
theorem witness_run : ∃ e, runFuel 1 (loaded [0]) = some e := ⟨_, rfl⟩

/-- `ResultPortShowsLastStep`: a `RUN` of the host that ends. -/
theorem witness_sessionRun : ∃ c, (session [0]).run 1 = some c := ⟨_, rfl⟩

/-- `RunCompletesAtFirstEnd`: a run that ends at its second step (V-END-2), and one that ends at its first. -/
theorem witness_runCompletes :
    (∃ t, Sys2Proof.core.run 2 (loaded [1, 31, 255, 255]) = .next t ∧ t.mode ≠ .running) ∧
      (∀ j, 1 ≤ j → j < 2 → ∃ u, Sys2Proof.core.run j (loaded [1, 31, 255, 255]) = .next u ∧ u.mode = .running) ∧
      ∃ t, Sys2Proof.core.run 1 (loaded [0]) = .next t ∧ t.mode ≠ .running := by
  refine ⟨⟨_, rfl, by decide⟩, fun j h1 h2 => ?_, ⟨_, rfl, by decide⟩⟩
  obtain rfl : j = 1 := by omega
  exact ⟨_, rfl, by decide⟩

end Sys2Proof.Tests
end

section
/-! The step of a fetched opcode, said once: which bytes the fetch hands to the decoder, and what becomes of them
(40_step_cycle.md R72 to R76). -/

namespace Sys2Proof.Machine

/-- No two opcodes share a byte (R53). -/
theorem opcodeByte_inj {op op' : Opcode} (h : opcodeByte op = opcodeByte op') : op = op' := by
  simpa using congrArg opcodeOfByte h

@[simp] theorem opcode_assemble (op : Opcode) (b1 b2 b3 : Byte) : (assemble op b1 b2 b3).opcode = op := by
  cases op <;> rfl

/-- A step that fetches runs the bytes of the fetch (R71). -/
theorem step_of_fetches {s : State} (hf : Fetches s) :
    step s = runBytes ((instrAddrs s).map (Memory.read s.prog)) s := by
  obtain ⟨hrun, hlt⟩ := hf
  rcases step_cases s with ⟨hm, -⟩ | ⟨hm, -⟩ | ⟨-, hge, -⟩ | ⟨-, -, hs⟩
  · simp [hrun] at hm
  · simp [hrun] at hm
  · omega
  · exact hs

/-- A step that fetches nothing ends the program when it is running, and otherwise changes nothing (R72, R82). -/
theorem step_of_not_fetches {s : State} (hf : ¬ Fetches s) :
    step s = .next (if s.mode = .running then s.halt else s) := by
  rcases step_cases s with ⟨hm, hs⟩ | ⟨hm, hs⟩ | ⟨hm, -, hs⟩ | ⟨hm, hlt, -⟩
  · simpa [hm] using hs
  · simpa [hm] using hs
  · simpa [hm] using hs
  · exact absurd ⟨hm, hlt⟩ hf

/-- An opcode with operands that fits in the program is fetched with its three operand bytes (R74, R75). -/
theorem fetchedBytes_of_fits {s : State} {op : Opcode} (hop : opcodeOfByte (byteAt s 0) = some op)
    (htakes : takesOperands op = true) (hfits : s.pc.toNat + 4 ≤ s.progLen.val) :
    (instrAddrs s).map (Memory.read s.prog) = [byteAt s 0, byteAt s 1, byteAt s 2, byteAt s 3] := by
  have hwants : wantsOperands (opcodeAtPc s) = true := by
    change opcodeOfByte (opcodeAtPc s) = some op at hop
    simp [wantsOperands, hop, htakes]
  simp [instrAddrs, hwants, hfits, byteAt]

/-- An opcode with operands that the end of the program cuts off is fetched alone (R34, R75). -/
theorem fetchedBytes_of_cut {s : State} (hcut : s.progLen.val < s.pc.toNat + 4) :
    (instrAddrs s).map (Memory.read s.prog) = [byteAt s 0] := by
  have hn : ¬ s.pc.toNat + 4 ≤ s.progLen.val := by omega
  simp [instrAddrs, hn, byteAt]

/-- An opcode byte without operands, or an illegal one, is fetched alone (R34). -/
theorem fetchedBytes_of_noOperands {s : State}
    (h : ∀ op, opcodeOfByte (byteAt s 0) = some op → takesOperands op = false) :
    (instrAddrs s).map (Memory.read s.prog) = [byteAt s 0] := by
  have hwants : wantsOperands (opcodeAtPc s) = false := by
    change ∀ op, opcodeOfByte (opcodeAtPc s) = some op → _ at h
    unfold wantsOperands
    split
    · next op hop => exact h op hop
    · rfl
  simp [instrAddrs, hwants, byteAt]

/-- Everything a step that fetches can do: it raises `IllegalOpcode`, runs `HLT`, raises `TruncatedProgram`, or runs
the instruction of the opcode and the three bytes after it (R56, R57, R73 to R75). -/
theorem step_fetched_cases {s : State} (hf : Fetches s) :
    (opcodeOfByte (byteAt s 0) = none ∧ step s = .next (s.raise .illegalOpcode)) ∨
      (byteAt s 0 = opcodeByte .hlt ∧ step s = exec .hlt s) ∨
      ∃ op, byteAt s 0 = opcodeByte op ∧ takesOperands op = true ∧
        ((s.progLen.val < s.pc.toNat + 4 ∧ step s = .next (s.raise .truncatedProgram)) ∨
          (s.pc.toNat + 4 ≤ s.progLen.val ∧
            step s = exec (assemble op (byteAt s 1) (byteAt s 2) (byteAt s 3)) s)) := by
  rw [step_of_fetches hf]
  cases hop : opcodeOfByte (byteAt s 0) with
  | none =>
    rw [fetchedBytes_of_noOperands (by simp [hop])]
    exact .inl ⟨rfl, by simp [runBytes, decode, hop]⟩
  | some op =>
    have hbyte := (opcodeByte_of_opcodeOfByte hop).symm
    cases htakes : takesOperands op with
    | false =>
      obtain rfl : op = .hlt := by cases op <;> simp [takesOperands] at htakes ⊢
      rw [fetchedBytes_of_noOperands (by simp [hop, takesOperands])]
      exact .inr (.inl ⟨hbyte, by simp [runBytes, decode, hop, htakes, assemble]⟩)
    | true =>
      refine .inr (.inr ⟨op, hbyte, htakes, ?_⟩)
      rcases Nat.lt_or_ge s.progLen.val (s.pc.toNat + 4) with hcut | hfits
      · rw [fetchedBytes_of_cut hcut]
        exact .inl ⟨hcut, by simp [runBytes, decode, hop, htakes]⟩
      · rw [fetchedBytes_of_fits hop htakes hfits]
        exact .inr ⟨hfits, by simp [runBytes, decode, hop, htakes]⟩

end Sys2Proof.Machine
end

section
/-! The value of `rem` after a step (10_state.md R18, 43_arithmetic.md R104, R107). -/

namespace Sys2Proof.Machine

/-- An operand form keeps `rem` when what it goes on with does: the index fault keeps it. -/
theorem withReg_rem {d : Byte} {s t : State} {k : RegNum → Result} (hk : ∀ r u, k r = .next u → u.rem = s.rem)
    (h : withReg d s k = .next t) : t.rem = s.rem := by
  unfold withReg at h
  split at h
  · exact hk _ _ h
  · cases h
    rfl

/-- The same for the form of three registers. -/
theorem withRegs_rem {a b d : Byte} {s t : State} {k : RegNum → RegNum → RegNum → Result}
    (hk : ∀ r₁ r₂ r₃ u, k r₁ r₂ r₃ = .next u → u.rem = s.rem) (h : withRegs a b d s k = .next t) :
    t.rem = s.rem := by
  unfold withRegs at h
  split at h
  · exact hk _ _ _ _ h
  · cases h
    rfl

/-- No instruction but `DIV` writes `rem` (R18). -/
theorem exec_rem_of_ne_div {i : Instr} {s t : State} (hi : i.opcode ≠ .div) (h : exec i s = .next t) :
    t.rem = s.rem := by
  cases i with
  | hlt =>
    cases h
    rfl
  | load rd imm => exact withReg_rem (by rintro _ _ ⟨⟩; rfl) h
  | add ra rb rd => exact withRegs_rem (by rintro _ _ _ _ ⟨⟩; rfl) h
  | sub ra rb rd => exact withRegs_rem (by rintro _ _ _ _ ⟨⟩; rfl) h
  | div ra rb rd => exact absurd rfl hi
  | mul ra rb rd => exact withRegs_rem (by rintro _ _ _ _ ⟨⟩; rfl) h
  | gt ra rb rd =>
    refine withRegs_rem ?_ h
    rintro _ _ _ _ ⟨⟩
    split <;> rfl

/-- `DIV` writes the remainder of the old sources when its indices are legal and its divisor is not zero, and keeps
`rem` otherwise (R100, R104, R105). -/
theorem execDiv_rem {ra rb rd : Byte} {s t : State} (h : execDiv ra rb rd s = .next t) :
    t.rem =
      if (ra.toNat < 32 ∧ rb.toNat < 32 ∧ rd.toNat < 32) ∧ regAt s rb.toNat ≠ 0 then
        aluRem (regAt s ra.toNat) (regAt s rb.toNat)
      else s.rem := by
  unfold execDiv at h
  by_cases hlegal : ra.toNat < 32 ∧ rb.toNat < 32 ∧ rd.toNat < 32
  · obtain ⟨ha, hb, hd⟩ := hlegal
    rw [withRegs_legal ha hb hd, ← regAt_of_lt s ha, ← regAt_of_lt s hb] at h
    have hzero : signed (regAt s rb.toNat) = 0 ↔ regAt s rb.toNat = 0 := by
      simpa [signed] using BitVec.toInt_inj (x := regAt s rb.toNat) (y := 0)
    split at h
    · next hz =>
      cases h
      rw [if_neg fun hc => hc.2 (hzero.mp hz)]
      rfl
    · next hz =>
      cases h
      rw [if_pos ⟨⟨ha, hb, hd⟩, mt hzero.mpr hz⟩]
      rfl
  · rw [withRegs_illegal (by omega)] at h
    cases h
    simp [hlegal]

/-- The index check of a `DIV` at `pc` fails exactly when one of its three indices is above 31 (R76). -/
theorem badIndex_of_div {s : State} (hdiv : byteAt s 0 = 4) :
    badIndex s = true ↔ ¬ ((byteAt s 1).toNat < 32 ∧ (byteAt s 2).toNat < 32 ∧ (byteAt s 3).toNat < 32) := by
  simp only [badIndex, hdiv, BitVec.reduceEq, if_false, Bool.or_eq_true, decide_eq_true_eq]
  omega

/-- A `DIV` at `pc` raises no fault exactly when it is whole, its indices are legal and its divisor is not zero
(60_exceptions.md R132 to R135). -/
theorem faultAt_eq_none_of_div {s : State} (hdiv : byteAt s 0 = 4) :
    faultAt s = none ↔
      s.pc.toNat + 4 ≤ s.progLen.val ∧
        ((byteAt s 1).toNat < 32 ∧ (byteAt s 2).toNat < 32 ∧ (byteAt s 3).toNat < 32) ∧
          regAt s (byteAt s 2).toNat ≠ 0 := by
  simp [faultAt, badIndex_of_div hdiv, hdiv, ite_eq_iff]

/-- `rem` after a step: the remainder of the old sources after a `DIV` that does not fault, and unchanged otherwise
(R18, R104). -/
theorem step_rem {s t : State} (h : step s = .next t) :
    t.rem =
      if Fetches s ∧ byteAt s 0 = 4 ∧ faultAt s = none then
        aluRem (regAt s (byteAt s 1).toNat) (regAt s (byteAt s 2).toNat)
      else s.rem := by
  by_cases hf : Fetches s
  · rcases step_fetched_cases hf with ⟨hop, hs⟩ | ⟨hop, hs⟩ | ⟨op, hop, -, ⟨hcut, hs⟩ | ⟨hfits, hs⟩⟩
    · have hne : byteAt s 0 ≠ 4 := by
        intro h4
        simp [h4, opcodeOfByte] at hop
      rw [if_neg fun hc => hne hc.2.1]
      cases hs.symm.trans h
      rfl
    · have hne : byteAt s 0 ≠ 4 := by simp [hop, opcodeByte]
      rw [if_neg fun hc => hne hc.2.1]
      exact exec_rem_of_ne_div (by simp [Instr.opcode]) (hs.symm.trans h)
    · have hfault : ¬ (byteAt s 0 = 4 ∧ faultAt s = none) := by
        rintro ⟨h4, hnone⟩
        have := ((faultAt_eq_none_of_div h4).mp hnone).1
        omega
      rw [if_neg fun hc => hfault hc.2]
      cases hs.symm.trans h
      rfl
    · rw [hs] at h
      by_cases hdiv : op = .div
      · subst hdiv
        have h4 : byteAt s 0 = 4 := hop
        simpa only [and_iff_right hf, h4, faultAt_eq_none_of_div h4, hfits, true_and] using execDiv_rem h
      · rw [if_neg fun hc => hdiv (opcodeByte_inj (hop.symm.trans hc.2.1))]
        exact exec_rem_of_ne_div (by simpa using hdiv) h
  · rw [if_neg fun hc => hf hc.1]
    rw [step_of_not_fetches hf] at h
    cases h
    split <;> rfl

end Sys2Proof.Machine
end

section
/-! No step reads `rem` (10_state.md R18): a step from a state and from the same state with another `rem` answer the
same once `rem` is overwritten in both answers. -/

namespace Sys2Proof.Machine

/-- The outcome of a step with `rem` overwritten in its next state: what two steps have in common that may differ in
`rem` only. -/
def overwriteRem (w : Word) : Result → Result
  | .next t => .next (t.setRem w)
  | .fault f => .fault f
  | .refused r => .refused r

/-- A next state under `overwriteRem` comes from a next state. -/
theorem next_of_overwriteRem {w : Word} {r : Result} {u : State} (h : overwriteRem w r = .next u) :
    ∃ t, r = .next t ∧ t.setRem w = u := by
  cases r with
  | next t => exact ⟨t, rfl, by simpa [overwriteRem] using h⟩
  | fault f => simp [overwriteRem] at h
  | refused r => simp [overwriteRem] at h

section
variable (w v : Word) (s : State)

/-- The index check of one register does not read `rem`. -/
theorem overwriteRem_withReg {d : Byte} {k k' : RegNum → Result}
    (hk : ∀ r, overwriteRem w (k' r) = overwriteRem w (k r)) :
    overwriteRem w (withReg d (s.setRem v) k') = overwriteRem w (withReg d s k) := by
  unfold withReg
  split
  · exact hk _
  · rfl

/-- The index check of three registers does not read `rem`. -/
theorem overwriteRem_withRegs {a b d : Byte} {k k' : RegNum → RegNum → RegNum → Result}
    (hk : ∀ r₁ r₂ r₃, overwriteRem w (k' r₁ r₂ r₃) = overwriteRem w (k r₁ r₂ r₃)) :
    overwriteRem w (withRegs a b d (s.setRem v) k') = overwriteRem w (withRegs a b d s k) := by
  unfold withRegs
  split
  · exact hk _ _ _
  · rfl

/-- No instruction reads `rem`. -/
theorem overwriteRem_exec (i : Instr) : overwriteRem w (exec i (s.setRem v)) = overwriteRem w (exec i s) := by
  cases i with
  | hlt => rfl
  | load rd imm => exact overwriteRem_withReg w v s fun _ => rfl
  | add ra rb rd => exact overwriteRem_withRegs w v s fun _ _ _ => rfl
  | sub ra rb rd => exact overwriteRem_withRegs w v s fun _ _ _ => rfl
  | div ra rb rd =>
    refine overwriteRem_withRegs w v s fun a b d => ?_
    rw [apply_ite (overwriteRem w), apply_ite (overwriteRem w)]
    rfl
  | mul ra rb rd => exact overwriteRem_withRegs w v s fun _ _ _ => rfl
  | gt ra rb rd =>
    refine overwriteRem_withRegs w v s fun a b d => ?_
    rw [apply_ite Host.Outcome.next, apply_ite Host.Outcome.next, apply_ite (overwriteRem w),
      apply_ite (overwriteRem w)]
    rfl

/-- No decode reads `rem`. -/
theorem overwriteRem_runBytes (bs : List Byte) :
    overwriteRem w (runBytes bs (s.setRem v)) = overwriteRem w (runBytes bs s) := by
  unfold runBytes
  split
  · exact overwriteRem_exec w v s _
  · rfl
  · rfl

/-- No step reads `rem`: neither the mode, nor the termination check, nor the fetched bytes depend on it. -/
theorem overwriteRem_step : overwriteRem w (step (s.setRem v)) = overwriteRem w (step s) := by
  have hiff : Fetches (s.setRem v) ↔ Fetches s := Iff.rfl
  by_cases hf : Fetches s
  · rw [step_of_fetches (hiff.mpr hf), step_of_fetches hf]
    exact overwriteRem_runBytes w v s _
  · rw [step_of_not_fetches (mt hiff.mp hf), step_of_not_fetches hf, setRem_mode]
    split <;> rfl

end

/-- Settles O34: the value by `step_rem`, the noninterference by overwriting the `rem` of both steps with the one the
first step left. -/
theorem remWrittenByDivOnlyAndNeverRead : Obligations.RemWrittenByDivOnlyAndNeverRead := by
  refine ⟨rfl, fun s t h => step_rem h, fun s t v h => ?_⟩
  have hsame : overwriteRem t.rem (step (s.setRem v)) = .next t := by
    rw [overwriteRem_step, h]
    rfl
  exact next_of_overwriteRem hsame

end Sys2Proof.Machine
end

section
/-! Every step and every instruction answers a next state over the same program (20_memory.md R31, R43): the one fact
that both the write and the read side of program memory rest on. -/

namespace Sys2Proof.Machine

/-- The outcome is a next state, and its program memory reads as that of `s` does, with the same length. -/
def KeepsProgram (s : State) (r : Result) : Prop := ∃ t, r = .next t ∧ SameProgram s t

/-- What an outcome's next state holds when the program is kept. -/
theorem KeepsProgram.sameProgram {s t : State} {r : Result} (hkeeps : KeepsProgram s r) (h : r = .next t) :
    SameProgram s t := by
  obtain ⟨u, hu, hsame⟩ := hkeeps
  cases hu.symm.trans h
  exact hsame

/-- An outcome that keeps the program is no stop of the model. -/
theorem KeepsProgram.ne_fault {s : State} {r : Result} (hkeeps : KeepsProgram s r) (f : Fault) : r ≠ .fault f := by
  obtain ⟨u, rfl, -⟩ := hkeeps
  nofun

/-- A next state with the same memory and the same length keeps the program. -/
theorem keepsProgram_next {s t : State} (hp : t.prog = s.prog) (hl : t.progLen = s.progLen) :
    KeepsProgram s (.next t) :=
  ⟨t, rfl, sameProgram_of_eq hp hl⟩

/-- Fault entry keeps the program (R137). -/
theorem keepsProgram_raise (s : State) (f : FaultKind) : KeepsProgram s (.next (s.raise f)) :=
  keepsProgram_next (raise_prog s f) (raise_progLen s f)

/-- Writing a register and advancing keeps the program. -/
theorem keepsProgram_setReg_advance (s : State) (d : RegNum) (v : Word) :
    KeepsProgram s (.next (s.setReg d v).advance) :=
  keepsProgram_next rfl rfl

/-- The form of one register keeps the program when what it goes on with does. -/
theorem keepsProgram_withReg {d : Byte} {s : State} {k : RegNum → Result} (hk : ∀ r, KeepsProgram s (k r)) :
    KeepsProgram s (withReg d s k) := by
  rcases Nat.lt_or_ge d.toNat 32 with hlegal | hillegal
  · rw [withReg_legal hlegal]
    exact hk _
  · rw [withReg_illegal hillegal]
    exact keepsProgram_raise s _

/-- The same for the form of three registers. -/
theorem keepsProgram_withRegs {a b d : Byte} {s : State} {k : RegNum → RegNum → RegNum → Result}
    (hk : ∀ r₁ r₂ r₃, KeepsProgram s (k r₁ r₂ r₃)) : KeepsProgram s (withRegs a b d s k) := by
  by_cases hlegal : a.toNat < 32 ∧ b.toNat < 32 ∧ d.toNat < 32
  · obtain ⟨ha, hb, hd⟩ := hlegal
    rw [withRegs_legal ha hb hd]
    exact hk _ _ _
  · rw [withRegs_illegal (by omega)]
    exact keepsProgram_raise s _

/-- No instruction stores (R31). -/
theorem keepsProgram_exec (i : Instr) (s : State) : KeepsProgram s (exec i s) := by
  cases i with
  | hlt => exact keepsProgram_next rfl rfl
  | load rd imm => exact keepsProgram_withReg fun _ => keepsProgram_setReg_advance s _ _
  | add ra rb rd => exact keepsProgram_withRegs fun _ _ _ => keepsProgram_setReg_advance s _ _
  | sub ra rb rd => exact keepsProgram_withRegs fun _ _ _ => keepsProgram_setReg_advance s _ _
  | mul ra rb rd => exact keepsProgram_withRegs fun _ _ _ => keepsProgram_setReg_advance s _ _
  | div ra rb rd =>
    refine keepsProgram_withRegs fun _ _ _ => ?_
    split
    · exact keepsProgram_raise s _
    · exact keepsProgram_next rfl rfl
  | gt ra rb rd =>
    refine keepsProgram_withRegs fun _ _ _ => ?_
    split <;> exact keepsProgram_next rfl rfl

/-- Decode and dispatch keep the program, whatever bytes they are given. -/
theorem keepsProgram_runBytes (bs : List Byte) (s : State) : KeepsProgram s (runBytes bs s) := by
  unfold runBytes
  split
  · exact keepsProgram_exec _ s
  · exact keepsProgram_raise s _
  · exact keepsProgram_raise s _

/-- Every step, from every state, answers a next state over the same program (R31, R71). -/
theorem keepsProgram_step (s : State) : KeepsProgram s (step s) := by
  by_cases hf : Fetches s
  · rw [step_of_fetches hf]
    exact keepsProgram_runBytes _ s
  · rw [step_of_not_fetches hf]
    split
    · exact keepsProgram_next (halt_prog s) (halt_progLen s)
    · exact keepsProgram_next rfl rfl

/-- Settles O27: steps and instructions alike answer a next state over the same program. -/
theorem coreNeverWritesMemory : Obligations.CoreNeverWritesMemory :=
  ⟨fun s _ h => (keepsProgram_step s).sameProgram h, fun i s _ h => (keepsProgram_exec i s).sameProgram h⟩

end Sys2Proof.Machine
end

section
/-! The addresses of a fetch lie inside the program (20_memory.md R34, R43). -/

namespace Sys2Proof.Machine

/-- With `pc` inside the program the fetch stays inside: the operand bytes are read only when all three are there
(R74, R75). -/
theorem instrAddrs_lt_progLen {s : State} (hpc : s.pc.toNat < s.progLen.val) {a : Nat} (ha : a ∈ instrAddrs s) :
    a < s.progLen.val := by
  unfold instrAddrs at ha
  split at ha
  · next hc =>
    have hfits : s.pc.toNat + 4 ≤ s.progLen.val := by
      simp only [Bool.and_eq_true, decide_eq_true_eq] at hc
      exact hc.2
    simp only [List.mem_cons, List.not_mem_nil, or_false] at ha
    omega
  · obtain rfl := List.mem_singleton.mp ha
    exact hpc

/-- A step that fetches puts the addresses of the instruction on `imem_addr` (R34). -/
theorem fetchAddrs_of_fetches {s : State} (hf : Fetches s) : fetchAddrs s = instrAddrs s := by
  obtain ⟨hrun, hpc⟩ := hf
  have hinside : ¬ s.progLen.val ≤ s.pc.toNat := Nat.not_le.mpr hpc
  simp [fetchAddrs, hrun, endOfProgram, hinside]

/-- A step that does not fetch puts no address on `imem_addr` (R72, R82). -/
theorem fetchAddrs_of_not_fetches {s : State} (hf : ¬ Fetches s) : fetchAddrs s = [] := by
  cases hm : s.mode with
  | running =>
    have hend : s.progLen.val ≤ s.pc.toNat := Nat.not_lt.mp fun hpc => hf ⟨hm, hpc⟩
    simp [fetchAddrs, hm, endOfProgram, hend]
  | halted => simp [fetchAddrs, hm]
  | faulted => simp [fetchAddrs, hm]

/-- Every address a step fetches lies inside the program. -/
theorem fetchAddrs_lt_progLen {s : State} {a : Nat} (ha : a ∈ fetchAddrs s) : a < s.progLen.val := by
  by_cases hf : Fetches s
  · rw [fetchAddrs_of_fetches hf] at ha
    exact instrAddrs_lt_progLen hf.2 ha
  · simp [fetchAddrs_of_not_fetches hf] at ha

/-- Settles O28: the addresses by the bounds of the fetch; a step stops on no read since it answers a next state. -/
theorem fetchStaysInsideProgram : Obligations.FetchStaysInsideProgram :=
  fun s => ⟨fun _ ha => fetchAddrs_lt_progLen ha, fun _ => (keepsProgram_step s).ne_fault _⟩

end Sys2Proof.Machine
end

section
/-! The decoder, one lemma for each of its answers (30_encoding.md sections 2 and 4, 40_step_cycle.md R75). -/

namespace Sys2Proof

/-- A byte that is no opcode is illegal whatever follows (R56). -/
theorem decode_of_noOpcode {b0 : Byte} (hop : opcodeOfByte b0 = none) (rest : List Byte) :
    decode (b0 :: rest) = .illegalOpcode := by
  simp [decode, hop]

/-- An opcode without operands needs no byte after it (R57). -/
theorem decode_of_noOperands {b0 : Byte} {op : Opcode} (hop : opcodeOfByte b0 = some op)
    (htakes : takesOperands op = false) (rest : List Byte) :
    decode (b0 :: rest) = .instr (assemble op 0 0 0) := by
  simp [decode, hop, htakes]

/-- An opcode with operands takes the three bytes after it and leaves the others unread (R51, R54). -/
theorem decode_of_operands {b0 : Byte} {op : Opcode} (hop : opcodeOfByte b0 = some op)
    (htakes : takesOperands op = true) (b1 b2 b3 : Byte) (rest : List Byte) :
    decode (b0 :: b1 :: b2 :: b3 :: rest) = .instr (assemble op b1 b2 b3) := by
  simp [decode, hop, htakes]

/-- An opcode with operands and fewer than three bytes after it is truncated (R134). -/
theorem decode_of_cut {b0 : Byte} {op : Opcode} (hop : opcodeOfByte b0 = some op)
    (htakes : takesOperands op = true) {rest : List Byte} (hcut : rest.length < 3) :
    decode (b0 :: rest) = .truncated := by
  match rest, hcut with
  | [], _ => simp [decode, hop, htakes]
  | [_], _ => simp [decode, hop, htakes]
  | [_, _], _ => simp [decode, hop, htakes]

/-- Settles O1: each clause is one answer of the decoder, at the opcodes the opcode map gives. -/
theorem decodeFollowsOpcodeMap : Obligations.DecodeFollowsOpcodeMap := by
  refine ⟨decode_of_noOperands (op := .hlt) rfl rfl, fun b1 b2 b3 rest => ⟨?_, ?_, ?_, ?_, ?_, ?_⟩,
    fun op rest h1 h6 hcut => ?_, fun op rest h7 => decode_of_noOpcode (opcodeOfByte_illegal h7) rest⟩
  · exact decode_of_operands (op := .load) rfl rfl b1 b2 b3 rest
  · exact decode_of_operands (op := .add) rfl rfl b1 b2 b3 rest
  · exact decode_of_operands (op := .sub) rfl rfl b1 b2 b3 rest
  · exact decode_of_operands (op := .div) rfl rfl b1 b2 b3 rest
  · exact decode_of_operands (op := .mul) rfl rfl b1 b2 b3 rest
  · exact decode_of_operands (op := .gt) rfl rfl b1 b2 b3 rest
  · obtain ⟨o, hop, htakes⟩ := opcodeOfByte_takesOperands h1 h6
    exact decode_of_cut hop htakes hcut

end Sys2Proof
end

section
/-! Load immediate: zero extension keeps the unsigned value, and the sign bit of the word stays clear
(42_load_immediate.md R95, 30_encoding.md R54). -/

namespace Sys2Proof.Machine

/-- Zero extension keeps the unsigned value. -/
@[simp] theorem zext32_toNat (imm : Imm16) : (zext32 imm).toNat = imm.toNat :=
  BitVec.toNat_setWidth_of_le (by decide)

/-- A zero-extended immediate is never negative: read as signed it is its unsigned value. -/
@[simp] theorem zext32_toInt (imm : Imm16) : (zext32 imm).toInt = imm.toNat := by
  have hsmall : 2 * (zext32 imm).toNat < 2 ^ 32 := by
    have hlt := imm.isLt
    rw [zext32_toNat]
    omega
  rw [BitVec.toInt_eq_toNat_of_lt hsmall, zext32_toNat]

/-- What `LOAD` does at a legal index (R95). -/
theorem execLoad_legal {rd : Byte} (hrd : rd.toNat < 32) (imm : Imm16) (s : State) :
    execLoad rd imm s = .next (s.setReg ⟨rd.toNat, hrd⟩ (zext32 imm)).advance :=
  withReg_legal hrd s _

/-- Settles O2: the loaded word is the zero-extended immediate, so both readings are the immediate's unsigned value. -/
theorem loadImmediateIsBigEndianUnsigned : Obligations.LoadImmediateIsBigEndianUnsigned := by
  intro s d high low hd
  refine ⟨.load d (immOfBytes high low), _, decode_of_operands (op := .load) rfl rfl d high low [],
    execLoad_legal hd _ s, ?_, ?_⟩
  · simp [immOfBytes_toNat]
  · simp [immOfBytes_toNat]

end Sys2Proof.Machine
end

section
/-! Everything an instruction can do, said once: the fault it raises of itself, or how it completes (40_step_cycle.md
R76, R77, 60_exceptions.md R132, R133). -/

namespace Sys2Proof.Machine

/-- The three index bytes of format `RRR` are legal exactly when each names a register (R55). -/
theorem all_indexLegal_three {a b d : Byte} :
    [a, b, d].all indexLegal = true ↔ a.toNat < 32 ∧ b.toNat < 32 ∧ d.toNat < 32 := by
  simp [indexLegal, Nat.lt_succ_iff]

/-- Legal index bytes name three registers, with which the form goes on; the second is the one `regAt` reads. -/
theorem withRegs_of_allLegal {a b d : Byte} (h : [a, b, d].all indexLegal = true) (s : State) :
    ∃ ra rb rd : RegNum, s.reg rb = regAt s b.toNat ∧
      ∀ k : RegNum → RegNum → RegNum → Result, withRegs a b d s k = k ra rb rd := by
  obtain ⟨ha, hb, hd⟩ := all_indexLegal_three.mp h
  exact ⟨_, _, _, (regAt_of_lt s hb).symm, withRegs_legal ha hb hd s⟩

/-- An illegal byte among the three raises the index fault (R133). -/
theorem withRegs_of_not_allLegal {a b d : Byte} (h : [a, b, d].all indexLegal = false) (s : State)
    (k : RegNum → RegNum → RegNum → Result) : withRegs a b d s k = .next (s.raise .registerIndexOutOfRange) := by
  have hbad := mt all_indexLegal_three.mpr (Bool.eq_false_iff.mp h)
  exact withRegs_illegal (by omega) s k

/-- The instruction is a `DIV` whose divisor register holds zero (R105). -/
def dividesByZero (s : State) : Instr → Bool
  | .div _ b _ => decide (regAt s b.toNat = 0)
  | _ => false

/-- The fault an instruction raises of itself, in the order of 60_exceptions.md R135. -/
def execFault (s : State) (i : Instr) : Option FaultKind :=
  if i.wellFormed = false then some .registerIndexOutOfRange
  else if dividesByZero s i then some .divisionByZero
  else none

/-- How an instruction that raises no fault leaves the state, by its opcode: `HLT` stops, `DIV` writes a register and
`rem`, `GT` writes `pc`, the others write one register (R77). -/
inductive Completes (s : State) : Opcode → State → Prop
  | hlt : Completes s .hlt (s.setPc (s.pc + 1)).halt
  | write {op : Opcode} (hop : op ∈ [.load, .add, .sub, .mul]) (d : RegNum) (v : Word) :
      Completes s op (s.setReg d v).advance
  | div (d : RegNum) (q r : Word) : Completes s .div ((s.setReg d q).setRem r).advance
  | gt (target : Word) : Completes s .gt (s.setPc target)

/-- An ill-formed instruction raises the index fault and has none of its effect (R76). -/
theorem exec_of_not_wellFormed {i : Instr} (h : i.wellFormed = false) (s : State) :
    exec i s = .next (s.raise .registerIndexOutOfRange) := by
  cases i with
  | hlt => exact absurd h (by decide)
  | load rd imm =>
    have hbad : 31 < rd.toNat := by simpa [Instr.wellFormed, Instr.indexBytes, indexLegal] using h
    exact withReg_illegal hbad s _
  | add ra rb rd => exact withRegs_of_not_allLegal h s _
  | sub ra rb rd => exact withRegs_of_not_allLegal h s _
  | div ra rb rd => exact withRegs_of_not_allLegal h s _
  | mul ra rb rd => exact withRegs_of_not_allLegal h s _
  | gt ra rb rd => exact withRegs_of_not_allLegal h s _

/-- A well-formed `DIV` by zero raises its fault and has none of its effect (R105). -/
theorem exec_of_dividesByZero {i : Instr} {s : State} (hwf : i.wellFormed = true) (hzero : dividesByZero s i = true) :
    exec i s = .next (s.raise .divisionByZero) := by
  cases i with
  | div ra rb rd =>
    obtain ⟨a, b, d, hb, hk⟩ := withRegs_of_allLegal hwf s
    have hdivisor : signed (s.reg b) = 0 := by
      rw [hb, of_decide_eq_true hzero]
      rfl
    exact (hk _).trans (if_pos hdivisor)
  | _ => exact absurd hzero (by simp [dividesByZero])

/-- A well-formed instruction that does not divide by zero completes. -/
theorem exec_completes {i : Instr} {s : State} (hwf : i.wellFormed = true) (hnz : dividesByZero s i = false) :
    ∃ t, exec i s = .next t ∧ Completes s i.opcode t := by
  cases i with
  | hlt => exact ⟨_, rfl, .hlt⟩
  | load rd imm =>
    have hrd : rd.toNat < 32 := by
      simpa [Instr.wellFormed, Instr.indexBytes, indexLegal, Nat.lt_succ_iff] using hwf
    exact ⟨_, withReg_legal hrd s _, .write (by simp [Instr.opcode]) _ _⟩
  | add ra rb rd =>
    obtain ⟨a, b, d, -, hk⟩ := withRegs_of_allLegal hwf s
    exact ⟨_, hk _, .write (by simp [Instr.opcode]) _ _⟩
  | sub ra rb rd =>
    obtain ⟨a, b, d, -, hk⟩ := withRegs_of_allLegal hwf s
    exact ⟨_, hk _, .write (by simp [Instr.opcode]) _ _⟩
  | mul ra rb rd =>
    obtain ⟨a, b, d, -, hk⟩ := withRegs_of_allLegal hwf s
    exact ⟨_, hk _, .write (by simp [Instr.opcode]) _ _⟩
  | div ra rb rd =>
    obtain ⟨a, b, d, hb, hk⟩ := withRegs_of_allLegal hwf s
    have hdivisor : signed (s.reg b) ≠ 0 := by
      rw [hb]
      exact fun h => of_decide_eq_false hnz (BitVec.eq_of_toInt_eq h)
    exact ⟨_, (hk _).trans (if_neg hdivisor), .div _ _ _⟩
  | gt ra rb rd =>
    obtain ⟨a, b, d, -, hk⟩ := withRegs_of_allLegal hwf s
    refine ⟨_, hk _, ?_⟩
    split
    · exact .gt _
    · exact .gt _

/-- Everything an instruction can do: it raises its own fault, or it has none and completes. -/
theorem exec_cases (i : Instr) (s : State) :
    (∃ f, execFault s i = some f ∧ exec i s = .next (s.raise f)) ∨
      (execFault s i = none ∧ ∃ t, exec i s = .next t ∧ Completes s i.opcode t) := by
  unfold execFault
  cases hwf : i.wellFormed with
  | false => exact .inl ⟨_, rfl, exec_of_not_wellFormed hwf s⟩
  | true =>
    cases hzero : dividesByZero s i with
    | true => exact .inl ⟨_, rfl, exec_of_dividesByZero hwf hzero⟩
    | false => exact .inr ⟨rfl, exec_completes hwf hzero⟩

/-- An instruction that completes has written at most one general register. -/
theorem Completes.reg_of_ne {s t : State} {op : Opcode} (hc : Completes s op t) :
    ∃ d : RegNum, ∀ r, r ≠ d → t.reg r = s.reg r := by
  cases hc with
  | hlt => exact ⟨0, fun _ _ => rfl⟩
  | write _ d v => exact ⟨d, fun _ h => setReg_reg_other s v h⟩
  | div d q r => exact ⟨d, fun _ h => setReg_reg_other s q h⟩
  | gt target => exact ⟨0, fun _ _ => rfl⟩

/-- An instruction that completes and is no `GT` has advanced `pc` by 1 or 4. -/
theorem Completes.pc_of_ne_gt {s t : State} {op : Opcode} (hc : Completes s op t) (hop : op ≠ .gt) :
    t.pc = s.pc + 1 ∨ t.pc = s.pc + 4 := by
  cases hc with
  | hlt => exact .inl rfl
  | write => exact .inr rfl
  | div => exact .inr rfl
  | gt => exact absurd rfl hop

/-- Of the instructions that complete, `HLT` alone changes the run state (R79, R90). -/
theorem Completes.mode {s t : State} {op : Opcode} (hc : Completes s op t) :
    t.mode = if op = .hlt then .halted else s.mode := by
  cases hc with
  | hlt => rfl
  | write hop =>
    split
    · next hhlt => simp [hhlt] at hop
    · rfl
  | div => rfl
  | gt => rfl

end Sys2Proof.Machine
end

section
/-! Dispatch: the opcode byte selects the instruction, and what an instruction may write (40_step_cycle.md R77). -/

namespace Sys2Proof.Machine

/-- A byte up to 6 is the byte of an opcode (R53). -/
theorem exists_opcodeByte_of_le_six {b : Byte} (h : b.toNat ≤ 6) : ∃ op, b = opcodeByte op := by
  rcases Nat.eq_zero_or_pos b.toNat with h0 | hpos
  · exact ⟨.hlt, BitVec.eq_of_toNat_eq h0⟩
  · obtain ⟨op, hop, -⟩ := opcodeOfByte_takesOperands hpos h
    exact ⟨op, (opcodeByte_of_opcodeOfByte hop).symm⟩

/-- `HLT` is the opcode of byte 0 (R53). -/
theorem opcodeByte_eq_zero {op : Opcode} : opcodeByte op = 0#8 ↔ op = .hlt :=
  ⟨fun h => opcodeByte_inj (op' := .hlt) h, fun h => h ▸ rfl⟩

/-- A step at a whole instruction is `exec` of the instruction its opcode byte selects; `HLT` is whole with its opcode
byte (R73 to R77). -/
theorem step_of_whole {s : State} {op : Opcode} (hf : Fetches s) (hop : byteAt s 0 = opcodeByte op)
    (hwhole : op = .hlt ∨ s.pc.toNat + 4 ≤ s.progLen.val) :
    step s = exec (assemble op (byteAt s 1) (byteAt s 2) (byteAt s 3)) s := by
  rcases step_fetched_cases hf with ⟨hnone, -⟩ | ⟨hhlt, hs⟩ | ⟨op', hop', htakes, ⟨hcut, -⟩ | ⟨-, hs⟩⟩
  · simp [hop] at hnone
  · obtain rfl := opcodeByte_inj (hop.symm.trans hhlt)
    exact hs
  · obtain rfl := opcodeByte_inj (hop.symm.trans hop')
    rcases hwhole with rfl | hfits
    · cases htakes
    · omega
  · obtain rfl := opcodeByte_inj (hop.symm.trans hop')
    exact hs

/-- No instruction writes more than one general register. -/
theorem exec_reg_of_ne {i : Instr} {s t : State} (h : exec i s = .next t) :
    ∃ d : RegNum, ∀ r, r ≠ d → t.reg r = s.reg r := by
  rcases exec_cases i s with ⟨f, -, he⟩ | ⟨-, u, he, hc⟩
  · cases he.symm.trans h
    exact ⟨0, fun _ _ => rfl⟩
  · cases he.symm.trans h
    exact hc.reg_of_ne

/-- Every instruction but `GT` leaves `pc`, when it faults, or advances it by 1 or 4. -/
theorem exec_pc_of_ne_gt {i : Instr} {s t : State} (hi : i.opcode ≠ .gt) (h : exec i s = .next t) :
    t.pc = s.pc ∨ t.pc = s.pc + 1 ∨ t.pc = s.pc + 4 := by
  rcases exec_cases i s with ⟨f, -, he⟩ | ⟨-, u, he, hc⟩
  · cases he.symm.trans h
    exact .inl rfl
  · cases he.symm.trans h
    exact .inr (hc.pc_of_ne_gt hi)

/-- Settles O35: the dispatch by `step_of_whole`, the writes by what an instruction can do. -/
theorem dispatchSelectsOneEffect : Obligations.DispatchSelectsOneEffect := by
  refine ⟨fun s hf hwhole h6 => ?_, fun i s t h => ⟨exec_reg_of_ne h, fun hrem => ?_, fun h0 h1 h4 => ?_⟩⟩
  · obtain ⟨op, hop⟩ := exists_opcodeByte_of_le_six h6
    rw [step_of_whole hf hop (hwhole.imp_left fun h0 => opcodeByte_eq_zero.mp (hop.symm.trans h0)), hop]
    cases op <;> rfl
  · by_contra hdiv
    exact hrem (exec_rem_of_ne_div hdiv h)
  · by_contra hgt
    rcases exec_pc_of_ne_gt hgt h with hpc | hpc | hpc
    · exact h0 hpc
    · exact h1 hpc
    · exact h4 hpc

end Sys2Proof.Machine
end

section
/-! The step result: `faultAt` is the fault the step raises, and without one the instruction completes
(40_step_cycle.md R79, 60_exceptions.md R135). -/

namespace Sys2Proof.Machine

/-- At a byte that is no opcode the fault is `IllegalOpcode` (R131). -/
theorem faultAt_of_noOpcode {s : State} (hop : opcodeOfByte (byteAt s 0) = none) :
    faultAt s = some .illegalOpcode := by
  have hbyte : 6 < (byteAt s 0).toNat := by
    by_contra hle
    obtain ⟨op, hop'⟩ := exists_opcodeByte_of_le_six (Nat.not_lt.mp hle)
    simp [hop'] at hop
  simp [faultAt, hbyte]

/-- `HLT` has no fault (R90). -/
theorem faultAt_of_hlt {s : State} (hop : byteAt s 0 = 0) : faultAt s = none := by
  simp [faultAt, hop]

/-- Being above 31 is the failure of the index check (R55). -/
theorem decide_lt_eq_not_indexLegal (b : Byte) : decide (31 < b.toNat) = !indexLegal b := by
  simp only [indexLegal, ← decide_not, Nat.not_le]

section
variable {s : State} {op : Opcode} (hop : byteAt s 0 = opcodeByte op) (htakes : takesOperands op = true)
include hop htakes

/-- At an opcode with operands neither the first nor the second test of `faultAt` holds. -/
theorem byteAt_of_operands : ¬ 6 < (byteAt s 0).toNat ∧ byteAt s 0 ≠ 0 := by
  rw [hop]
  cases op with
  | hlt => cases htakes
  | _ => decide

/-- An instruction with operands that the end of the program cuts off is truncated (R134). -/
theorem faultAt_of_cut (hcut : s.progLen.val < s.pc.toNat + 4) : faultAt s = some .truncatedProgram := by
  obtain ⟨hlegal, hne⟩ := byteAt_of_operands hop htakes
  rw [faultAt, if_neg hlegal, if_neg hne, if_pos hcut]

/-- The index check of the bytes at `pc` is the well-formedness of the instruction they give (R76). -/
theorem badIndex_eq_not_wellFormed :
    badIndex s = !(assemble op (byteAt s 1) (byteAt s 2) (byteAt s 3)).wellFormed := by
  simp only [badIndex, hop, decide_lt_eq_not_indexLegal]
  cases op with
  | hlt => cases htakes
  | _ => simp [opcodeByte, assemble, Instr.wellFormed, Instr.indexBytes, Bool.or_assoc]

/-- The divide check of the bytes at `pc` is that of the instruction they give (R105). -/
theorem divides_iff_dividesByZero :
    byteAt s 0 = 4 ∧ regAt s (byteAt s 2).toNat = 0 ↔
      dividesByZero s (assemble op (byteAt s 1) (byteAt s 2) (byteAt s 3)) = true := by
  rw [hop]
  cases op with
  | hlt => cases htakes
  | _ => simp [opcodeByte, assemble, dividesByZero]

/-- The fault at a whole instruction with operands is the instruction's own. -/
theorem faultAt_of_whole (hfits : s.pc.toNat + 4 ≤ s.progLen.val) :
    faultAt s = execFault s (assemble op (byteAt s 1) (byteAt s 2) (byteAt s 3)) := by
  obtain ⟨hlegal, hne⟩ := byteAt_of_operands hop htakes
  rw [faultAt, if_neg hlegal, if_neg hne, if_neg (Nat.not_lt.mpr hfits), execFault]
  simp only [badIndex_eq_not_wellFormed hop htakes, divides_iff_dividesByZero hop htakes, Bool.not_eq_true']

end

/-- A step that fetches raises the fault `faultAt` names; if it names none, the instruction of the opcode byte
completes (R135). -/
theorem step_of_faultAt {s : State} (hf : Fetches s) :
    (∃ f, faultAt s = some f ∧ step s = .next (s.raise f)) ∨
      (faultAt s = none ∧ ∃ op t, byteAt s 0 = opcodeByte op ∧ step s = .next t ∧ Completes s op t) := by
  rcases step_fetched_cases hf with ⟨hnone, hs⟩ | ⟨hhlt, hs⟩ | ⟨op, hop, htakes, ⟨hcut, hs⟩ | ⟨hfits, hs⟩⟩
  · exact .inl ⟨_, faultAt_of_noOpcode hnone, hs⟩
  · exact .inr ⟨faultAt_of_hlt hhlt, .hlt, _, hhlt, hs, .hlt⟩
  · exact .inl ⟨_, faultAt_of_cut hop htakes hcut, hs⟩
  · rw [faultAt_of_whole hop htakes hfits, hs]
    refine (exec_cases _ s).imp_right fun ⟨hnone, t, he, hc⟩ => ⟨hnone, op, t, hop, he, ?_⟩
    rwa [opcode_assemble] at hc

/-- The result of a step is `Done` exactly when it leaves `HALTED` (R79). -/
theorem resultOf_eq_done {t : State} : resultOf t = .done ↔ t.mode = .halted := by
  unfold resultOf
  split <;> simp [*]

/-- The result is `Fault` with the recorded cause exactly when the step leaves `FAULTED` (R79). -/
theorem resultOf_eq_fault {t : State} : resultOf t = .fault t.faultCause ↔ t.mode = .faulted := by
  unfold resultOf
  split <;> simp [*]

/-- The result is `Continue` exactly when the step leaves `RUNNING` (R79). -/
theorem resultOf_eq_continues {t : State} : resultOf t = .continues ↔ t.mode = .running := by
  unfold resultOf
  split <;> simp [*]

/-- The result of a step that completes an instruction: `Done` after `HLT`, `Continue` after any other (R79). -/
theorem Completes.resultOf_eq {s t : State} {op : Opcode} (hc : Completes s op t) (hrun : s.mode = .running) :
    resultOf t = if op = .hlt then .done else .continues := by
  split
  · next hop => exact resultOf_eq_done.mpr (by rw [hc.mode, if_pos hop])
  · next hop => exact resultOf_eq_continues.mpr (by rw [hc.mode, if_neg hop, hrun])

/-- The result every step presents, by the state it starts from (R79). -/
theorem step_result (s : State) :
    ∃ t, step s = .next t ∧
      (resultOf t = .done ↔
        s.mode = .halted ∨ (s.mode = .running ∧ (s.progLen.val ≤ s.pc.toNat ∨ byteAt s 0 = 0))) ∧
      (∀ c, resultOf t = .fault c ↔
        (s.mode = .faulted ∧ c = s.faultCause) ∨ (Fetches s ∧ ∃ f, faultAt s = some f ∧ c = .raised f)) ∧
      (resultOf t = .continues ↔ Fetches s ∧ byteAt s 0 ≠ 0 ∧ faultAt s = none) := by
  rcases step_cases s with ⟨hm, hs⟩ | ⟨hm, hs⟩ | ⟨hm, hend, hs⟩ | ⟨hm, hpc, -⟩
  · exact ⟨s, hs, by simp [resultOf, hm]⟩
  · exact ⟨s, hs, by simp [resultOf, hm, eq_comm]⟩
  · exact ⟨s.halt, hs, by simp [resultOf, hm, hend]⟩
  · have hinside : ¬ s.progLen.val ≤ s.pc.toNat := Nat.not_le.mpr hpc
    rcases step_of_faultAt ⟨hm, hpc⟩ with ⟨f, hfault, hs⟩ | ⟨hnone, op, t, hop, hs, hc⟩
    · have hne : byteAt s 0 ≠ 0#8 := fun h0 => by simp [faultAt_of_hlt h0] at hfault
      exact ⟨_, hs, by simp [resultOf, hm, hinside, hne], by simp [resultOf, Fetches, hm, hpc, hfault, eq_comm],
        by simp [resultOf, hfault]⟩
    · refine ⟨t, hs, ?_⟩
      rw [hc.resultOf_eq hm, hop]
      by_cases hhlt : op = .hlt
      · simp [hhlt, opcodeByte, hm, hnone]
      · simp [hhlt, opcodeByte_eq_zero, Fetches, hm, hpc, hinside, hnone]

/-- Settles O32: when each result is presented by `step_result`, and the mode each leaves by `resultOf`. -/
theorem stepResultFollowsMode : Obligations.StepResultFollowsMode := by
  intro s
  obtain ⟨t, hs, hdone, hfault, hcontinues⟩ := step_result s
  exact ⟨t, resultOf t, hs, stepOp_of_next hs, hdone, hfault, hcontinues, resultOf_eq_done.symm,
    resultOf_eq_fault.symm, resultOf_eq_continues.symm⟩

end Sys2Proof.Machine
end

section
/-! The end of the program (40_step_cycle.md R72). -/

namespace Sys2Proof.Machine

/-- Settles O18: a step at the end fetches nothing and only halts. -/
theorem endOfProgramHalts : Obligations.EndOfProgramHalts := by
  intro s hrun hend
  have hnf : ¬ Fetches s := fun hf => Nat.not_lt.mpr hend hf.2
  have hs : step s = .next s.halt := by rw [step_of_not_fetches hnf, if_pos hrun]
  exact ⟨fetchAddrs_of_not_fetches hnf, s.halt, hs, stepOp_of_next hs, halt_mode s, halt_reg s, halt_pc s, halt_rem s,
    halt_faultCause s, sameProgram_of_eq (halt_prog s) (halt_progLen s)⟩

end Sys2Proof.Machine
end

section
/-! Words written out from the encodings (30_encoding.md section 2). -/

namespace Sys2Proof

/-- Settles O7: each word is one answer of the decoder at its opcode byte. -/
theorem specWordsDecode : Obligations.SpecWordsDecode :=
  ⟨decode_of_noOperands (op := .hlt) rfl rfl _,
    decode_of_operands (op := .load) rfl rfl 2 1 2 [],
    decode_of_operands (op := .add) rfl rfl 1 3 6 [],
    decode_of_operands (op := .div) rfl rfl 1 2 4 [],
    decode_of_operands (op := .gt) rfl rfl 1 3 3 [],
    decode_of_noOpcode rfl _,
    decode_of_cut (op := .add) rfl rfl (by decide)⟩

end Sys2Proof
end

section
/-! `HLT` (41_system_hlt.md R90). -/

namespace Sys2Proof.Machine

/-- A step at the opcode byte of `HLT` runs it wherever it stands in the program, as it needs no operand byte (R90). -/
theorem step_of_hlt {s : State} (hf : Fetches s) (hop : byteAt s 0 = opcodeByte .hlt) : step s = exec .hlt s :=
  step_of_whole hf hop (.inl rfl)

/-- A `HALTED` machine stays as it is, and every step of it is `Done` (R79, R82). -/
theorem stepOp_of_halted {s : State} (hm : s.mode = .halted) : stepOp s = some (s, .done) := by
  have hnf : ¬ Fetches s := fun hf => nomatch hm.symm.trans hf.1
  have hs : step s = .next s := by simp [step_of_not_fetches hnf, hm]
  rw [stepOp_of_next hs, resultOf_eq_done.mpr hm]

/-- Settles O38: `HLT` is one write of `pc` and one of `mode`, and the state it leaves is `HALTED`. -/
theorem hltEffect : Obligations.HltEffect := by
  refine ⟨fun s => ⟨(s.setPc (s.pc + 1)).halt, rfl, rfl, rfl, fun _ => rfl, rfl, rfl, sameProgram_of_eq rfl rfl⟩,
    fun s hf hop => ?_⟩
  have hs : step s = .next (s.setPc (s.pc + 1)).halt := step_of_hlt hf hop
  have hdone := resultOf_eq_done.mpr (halt_mode (s.setPc (s.pc + 1)))
  exact ⟨hs, _, by rw [stepOp_of_next hs, hdone], stepOp_of_halted (halt_mode _)⟩

end Sys2Proof.Machine
end

section
/-! How a step meets an opcode with operands (40_step_cycle.md R74, R75), and `LOAD` (42_load_immediate.md R95). -/

namespace Sys2Proof.Machine

/-- A step at an opcode with operands that the end of the program cuts off raises `TruncatedProgram` (R134). -/
theorem step_of_cut {s : State} {op : Opcode} (hf : Fetches s) (hop : byteAt s 0 = opcodeByte op)
    (htakes : takesOperands op = true) (hcut : s.progLen.val < s.pc.toNat + 4) :
    step s = .next (s.raise .truncatedProgram) := by
  have hdecode : decode [byteAt s 0] = .truncated := decode_of_cut (by simp [hop]) htakes (by decide)
  rw [step_of_fetches hf, fetchedBytes_of_cut hcut, runBytes, hdecode]

/-- Every opcode with operands is met alike: cut off it is truncated, otherwise the instruction it assembles runs. -/
theorem stepMeets_assemble {op : Opcode} (htakes : takesOperands op = true) :
    StepMeets (opcodeByte op) (assemble op) :=
  fun s hf hop => ⟨fun hcut => ⟨_, step_of_cut hf hop htakes hcut, raises_raise s _⟩,
    fun hfits => step_of_whole hf hop (.inr hfits)⟩

/-- `LOAD` with an index above 31 only raises the index fault (R133). -/
theorem execLoad_illegal {rd : Byte} (hrd : 31 < rd.toNat) (imm : Imm16) (s : State) :
    execLoad rd imm s = .next (s.raise .registerIndexOutOfRange) :=
  withReg_illegal hrd s _

/-- Settles O39: `execLoad` by the legality of its index, the step by `stepMeets_assemble`. -/
theorem loadEffect : Obligations.LoadEffect := by
  refine ⟨fun s d imm hd => ?_, fun s d imm hd => ?_, stepMeets_assemble (op := .load) rfl⟩
  · exact ⟨_, execLoad_legal hd imm s, onlyReg_setReg_advance s _ _⟩
  · exact ⟨_, execLoad_illegal hd imm s, raises_raise s _⟩

end Sys2Proof.Machine
end

section
/-! `ADD`, `SUB` and `MUL`: the form of three registers, at legal indices one register written with the ALU's answer,
and otherwise the index fault (43_arithmetic.md R101 to R103). -/

namespace Sys2Proof.Machine

/-- Three legal indices, equal or not: writing `f` of the old sources and advancing is all the form does (R100). -/
theorem withRegs_onlyReg {a b d : Byte} (ha : a.toNat < 32) (hb : b.toNat < 32) (hd : d.toNat < 32) (s : State)
    (f : Word → Word → Word) :
    ∃ t, (withRegs a b d s fun ra rb rd => .next (s.setReg rd (f (s.reg ra) (s.reg rb))).advance) = .next t ∧
      OnlyReg s t ⟨d.toNat, hd⟩ (f (s.reg ⟨a.toNat, ha⟩) (s.reg ⟨b.toNat, hb⟩)) :=
  ⟨_, withRegs_legal ha hb hd s _, onlyReg_setReg_advance s _ _⟩

/-- An index above 31 in any place is the index fault and nothing else, whatever the instruction would do (R133). -/
theorem withRegs_raises {a b d : Byte} (h : 31 < a.toNat ∨ 31 < b.toNat ∨ 31 < d.toNat) (s : State)
    (k : RegNum → RegNum → RegNum → Result) :
    ∃ t, withRegs a b d s k = .next t ∧ Raises s t .registerIndexOutOfRange :=
  ⟨_, withRegs_illegal h s k, raises_raise s _⟩

/-- Settles O40: the form of three registers with `aluAdd`, the step by `stepMeets_assemble`. -/
theorem addEffect : Obligations.AddEffect :=
  ⟨fun s _ _ _ ha hb hd => withRegs_onlyReg ha hb hd s aluAdd, fun s _ _ _ h => withRegs_raises h s _,
    stepMeets_assemble (op := .add) rfl⟩

/-- Settles O41: the form of three registers with `aluSub`, the step by `stepMeets_assemble`. -/
theorem subEffect : Obligations.SubEffect :=
  ⟨fun s _ _ _ ha hb hd => withRegs_onlyReg ha hb hd s aluSub, fun s _ _ _ h => withRegs_raises h s _,
    stepMeets_assemble (op := .sub) rfl⟩

/-- Settles O42: the form of three registers with `aluMul`, the step by `stepMeets_assemble`. -/
theorem mulEffect : Obligations.MulEffect :=
  ⟨fun s _ _ _ ha hb hd => withRegs_onlyReg ha hb hd s aluMul, fun s _ _ _ h => withRegs_raises h s _,
    stepMeets_assemble (op := .mul) rfl⟩

end Sys2Proof.Machine
end

section
/-! Division by zero: `DIV` with a zero divisor raises its fault, and nothing else does (43_arithmetic.md R105,
60_exceptions.md R132). -/

namespace Sys2Proof.Machine

/-- `DIV` with legal indices and a divisor that reads zero raises `DivisionByZero`, whatever the dividend (R105). -/
theorem exec_div_of_zero {s : State} {a b d : Byte} (hlegal : a.toNat < 32 ∧ b.toNat < 32 ∧ d.toNat < 32)
    (hzero : (regAt s b.toNat).toInt = 0) : exec (.div a b d) s = .next (s.raise .divisionByZero) :=
  exec_of_dividesByZero (all_indexLegal_three.mpr hlegal) (decide_eq_true (BitVec.eq_of_toInt_eq hzero))

/-- The one instruction whose own fault is `DivisionByZero` is a well-formed one that divides by zero. -/
theorem execFault_eq_divisionByZero {i : Instr} {s : State} :
    execFault s i = some .divisionByZero ↔ i.wellFormed = true ∧ dividesByZero s i = true := by
  cases hwf : i.wellFormed <;> simp [execFault, hwf]

/-- A well-formed instruction that divides by zero is a `DIV` whose divisor register reads zero. -/
theorem eq_div_of_dividesByZero {i : Instr} {s : State} (hwf : i.wellFormed = true)
    (hzero : dividesByZero s i = true) :
    ∃ (a b d : Byte) (hb : b.toNat < 32), i = .div a b d ∧ (s.reg ⟨b.toNat, hb⟩).toInt = 0 := by
  cases i with
  | div a b d =>
    obtain ⟨-, hb, -⟩ := all_indexLegal_three.mp hwf
    have hreg : s.reg ⟨b.toNat, hb⟩ = 0 := (regAt_of_lt s hb).symm.trans (of_decide_eq_true hzero)
    exact ⟨a, b, d, hb, rfl, by rw [hreg]; rfl⟩
  | _ => exact absurd hzero (by simp [dividesByZero])

/-- An instruction that completes from `RUNNING` does not leave `FAULTED`. -/
theorem Completes.mode_ne_faulted {s t : State} {op : Opcode} (hc : Completes s op t) (hrun : s.mode = .running) :
    t.mode ≠ .faulted := by
  rw [hc.mode, hrun]
  split <;> decide

/-- An instruction that leaves `RUNNING` for `FAULTED` has raised its own fault, and recorded it (R136). -/
theorem execFault_of_faulted {i : Instr} {s t : State} (hrun : s.mode = .running) (h : exec i s = .next t)
    (hm : t.mode = .faulted) : ∃ f, execFault s i = some f ∧ t.faultCause = .raised f := by
  rcases exec_cases i s with ⟨f, hfault, he⟩ | ⟨-, u, he, hc⟩
  · cases he.symm.trans h
    exact ⟨f, hfault, raise_faultCause s f⟩
  · cases he.symm.trans h
    exact absurd hm (hc.mode_ne_faulted hrun)

/-- Settles O24: the first two clauses by `exec_div_of_zero`, the third since an instruction that ends in `FAULTED`
recorded its own fault. -/
theorem divisionByZeroFault : Obligations.DivisionByZeroFault := by
  refine ⟨fun s a b d ha hb hd hzero => ?_, fun s hf hdiv hfits hindex hzero => ?_, fun i s t hrun h hm hcause => ?_⟩
  · rw [← regAt_of_lt s hb] at hzero
    exact ⟨_, exec_div_of_zero ⟨ha, hb, hd⟩ hzero, raises_raise s _⟩
  · have hlegal := not_not.mp (mt (badIndex_of_div hdiv).mpr (Bool.eq_false_iff.mp hindex))
    have hstep := step_of_whole (op := .div) hf hdiv (.inr hfits)
    exact ⟨_, hstep.trans (exec_div_of_zero hlegal hzero), raises_raise s _⟩
  · obtain ⟨f, hfault, hrecorded⟩ := execFault_of_faulted hrun h hm
    obtain rfl : f = .divisionByZero := by simpa using hrecorded.symm.trans hcause
    obtain ⟨hwf, hzero⟩ := execFault_eq_divisionByZero.mp hfault
    exact eq_div_of_dividesByZero hwf hzero

end Sys2Proof.Machine
end

section
/-! `GT`: at legal indices a write of `pc` alone, and otherwise the index fault (44_branch_gt.md R120). -/

namespace Sys2Proof.Machine

/-- Writing `pc` is what `OnlyPc` says. -/
theorem onlyPc_setPc (s : State) (v : Word) : OnlyPc s (s.setPc v) v :=
  ⟨setPc_pc s v, setPc_reg s v, setPc_rem s v, ⟨setPc_mode s v, setPc_faultCause s v⟩,
    sameProgram_of_eq (setPc_prog s v) (setPc_progLen s v)⟩

/-- Advancing changes nothing but `pc`, which it moves by 4. -/
theorem onlyPc_advance (s : State) : OnlyPc s s.advance (s.pc + 4) :=
  onlyPc_setPc s (s.pc + 4)

/-- `GT` with legal indices jumps to all 32 bits of the third register if the comparison holds, and advances otherwise
(R120, R121). -/
theorem execGt_legal {a b d : Byte} (ha : a.toNat < 32) (hb : b.toNat < 32) (hd : d.toNat < 32) (s : State) :
    execGt a b d s =
      .next (if greater (s.reg ⟨a.toNat, ha⟩) (s.reg ⟨b.toNat, hb⟩) then s.setPc (s.reg ⟨d.toNat, hd⟩)
        else s.advance) :=
  withRegs_legal ha hb hd s _

/-- The comparison of `GT` is the strict order of the signed values (R120). -/
theorem greater_iff {v w : Word} : greater v w = true ↔ v.toInt > w.toInt :=
  decide_eq_true_iff

/-- Settles O44: at legal indices a jump if the comparison holds and an advance if not, the index fault by
`withRegs_raises`, the step by `stepMeets_assemble`. -/
theorem gtEffect : Obligations.GtEffect := by
  refine ⟨fun s a b d ha hb hd => ⟨_, execGt_legal ha hb hd s, ?_⟩, fun s _ _ _ h => withRegs_raises h s _,
    stepMeets_assemble (op := .gt) rfl⟩
  simp only [greater_iff]
  split
  · exact onlyPc_setPc s _
  · exact onlyPc_advance s

end Sys2Proof.Machine
end

section
/-! `IllegalOpcode` and `TruncatedProgram`: the two faults a step raises from its opcode byte and the length of the
program alone (60_exceptions.md R131, R134). -/

namespace Sys2Proof.Machine

/-- A step that fetches raises the fault `faultAt` names, with all else unchanged (R135, R137). -/
theorem step_raises_of_faultAt {s : State} {f : FaultKind} (hf : Fetches s) (hfault : faultAt s = some f) :
    ∃ t, step s = .next t ∧ Raises s t f := by
  rcases step_of_faultAt hf with ⟨g, hg, hs⟩ | ⟨hnone, -⟩
  · cases hfault.symm.trans hg
    exact ⟨_, hs, raises_raise s f⟩
  · cases hfault.symm.trans hnone

/-- A step that leaves `RUNNING` for `FAULTED` has fetched an opcode byte and recorded the fault `faultAt` names
(R136). -/
theorem faultAt_of_step_faulted {s t : State} (hrun : s.mode = .running) (h : step s = .next t)
    (hm : t.mode = .faulted) : Fetches s ∧ ∃ f, faultAt s = some f ∧ t.faultCause = .raised f := by
  by_cases hf : Fetches s
  · rcases step_of_faultAt hf with ⟨f, hfault, hs⟩ | ⟨-, op, u, -, hs, hc⟩
    · cases hs.symm.trans h
      exact ⟨hf, f, hfault, raise_faultCause s f⟩
    · cases hs.symm.trans h
      exact absurd hm (hc.mode_ne_faulted hrun)
  · rw [step_of_not_fetches hf, if_pos hrun] at h
    cases h
    cases hm

/-- A step that leaves `RUNNING` for `FAULTED` with a given cause has fetched where `faultAt` names that fault. -/
theorem faultAt_of_step_raised {s t : State} {f : FaultKind} (hrun : s.mode = .running) (h : step s = .next t)
    (hm : t.mode = .faulted) (hcause : t.faultCause = .raised f) : Fetches s ∧ faultAt s = some f := by
  obtain ⟨hf, g, hfault, hrecorded⟩ := faultAt_of_step_faulted hrun h hm
  cases hcause.symm.trans hrecorded
  exact ⟨hf, hfault⟩

/-- `faultAt` names `IllegalOpcode` exactly at a byte above 6 (R131). -/
theorem faultAt_eq_illegalOpcode {s : State} : faultAt s = some .illegalOpcode ↔ 7 ≤ (byteAt s 0).toNat := by
  refine ⟨fun h => ?_, fun h7 => faultAt_of_noOpcode (opcodeOfByte_illegal h7)⟩
  by_contra hlegal
  rw [faultAt, if_neg (by omega)] at h
  split_ifs at h <;> cases h

/-- `faultAt` names `TruncatedProgram` exactly at an opcode byte 1 to 6 fewer than four bytes before the end (R134). -/
theorem faultAt_eq_truncatedProgram {s : State} :
    faultAt s = some .truncatedProgram ↔
      1 ≤ (byteAt s 0).toNat ∧ (byteAt s 0).toNat ≤ 6 ∧ s.progLen.val < s.pc.toNat + 4 := by
  refine ⟨fun h => ?_, fun ⟨h1, h6, hcut⟩ => ?_⟩
  · unfold faultAt at h
    split_ifs at h with hillegal hhlt hcut <;> cases h
    exact ⟨Nat.pos_of_ne_zero fun h0 => hhlt (BitVec.eq_of_toNat_eq h0), Nat.not_lt.mp hillegal, hcut⟩
  · obtain ⟨op, hop, htakes⟩ := opcodeOfByte_takesOperands h1 h6
    exact faultAt_of_cut (opcodeByte_of_opcodeOfByte hop).symm htakes hcut

/-- A step puts only `pc` on `imem_addr` at a byte that is no opcode, and where fewer than four bytes are left (R34). -/
theorem fetchAddrs_of_opcodeOnly {s : State} (hf : Fetches s)
    (honly : opcodeOfByte (byteAt s 0) = none ∨ s.progLen.val < s.pc.toNat + 4) :
    fetchAddrs s = [s.pc.toNat] := by
  rw [fetchAddrs_of_fetches hf, instrAddrs, if_neg]
  rcases honly with hnone | hcut
  · change opcodeOfByte (opcodeAtPc s) = none at hnone
    simp [wantsOperands, hnone]
  · simp [hcut]

/-- Settles O20: the fault `faultAt` names is the one the step raises and records, and it is `IllegalOpcode` at the
bytes above 6. -/
theorem illegalOpcodeFault : Obligations.IllegalOpcodeFault :=
  ⟨fun _ hf h7 => ⟨fetchAddrs_of_opcodeOnly hf (.inl (opcodeOfByte_illegal h7)),
      step_raises_of_faultAt hf (faultAt_eq_illegalOpcode.mpr h7)⟩,
    fun _ _ hrun h hm hcause => (faultAt_of_step_raised hrun h hm hcause).imp_right faultAt_eq_illegalOpcode.mp⟩

/-- Settles O21: the fault `faultAt` names is the one the step raises and records, and it is `TruncatedProgram` at the
opcode bytes with operands that the end cuts off. -/
theorem truncatedProgramFault : Obligations.TruncatedProgramFault :=
  ⟨fun _ hf h1 h6 hcut => ⟨fetchAddrs_of_opcodeOnly hf (.inr hcut),
      step_raises_of_faultAt hf (faultAt_eq_truncatedProgram.mpr ⟨h1, h6, hcut⟩)⟩,
    fun _ _ hrun h hm hcause => (faultAt_of_step_raised hrun h hm hcause).imp_right faultAt_eq_truncatedProgram.mp⟩

end Sys2Proof.Machine
end

section
/-! `RUN` under fuel, one step at a time: it goes on from a state that is running and ends in one that is not
(40_step_cycle.md R80, R84). -/

namespace Sys2Proof.Machine

/-- A `RUN` whose step leaves `RUNNING` goes on from there with one fuel less. -/
theorem runFuel_succ_of_running {s t : State} (n : Nat) (h : step s = .next t) (hrun : t.mode = .running) :
    runFuel (n + 1) s = runFuel n t := by
  rw [runFuel, stepOp_of_next h, resultOf_eq_continues.mpr hrun]

/-- A `RUN` whose step leaves another mode ends there, with that step's result. -/
theorem runFuel_succ_of_ended {s t : State} (n : Nat) (h : step s = .next t) (hend : t.mode ≠ .running) :
    runFuel (n + 1) s = some (t, resultOf t) := by
  rw [runFuel, stepOp_of_next h]
  cases hresult : resultOf t with
  | continues => exact absurd (resultOf_eq_continues.mp hresult) hend
  | done => rfl
  | fault f => rfl

/-- A `RUN` that ends, ends in a state that is not running and presents the result of its last step. -/
theorem ended_of_runFuel {n : Nat} {s t : State} {r : StepResult} (h : runFuel n s = some (t, r)) :
    t.mode ≠ .running ∧ r = resultOf t := by
  induction n generalizing s with
  | zero => cases h
  | succ n ih =>
    obtain ⟨u, hs, -⟩ := keepsProgram_step s
    by_cases hrun : u.mode = .running
    · exact ih ((runFuel_succ_of_running n hs hrun).symm.trans h)
    · cases (runFuel_succ_of_ended n hs hrun).symm.trans h
      exact ⟨hrun, rfl⟩

/-- If the state after `k` steps is the first that is not running, `RUN` with fuel for them ends in it. -/
theorem runFuel_of_firstEnd {n k : Nat} {s t : State} (hk : 1 ≤ k) (hfuel : k ≤ n)
    (hrun : Sys2Proof.core.run k s = .next t) (hend : t.mode ≠ .running)
    (hfirst : ∀ j, 1 ≤ j → j < k → ∃ u, Sys2Proof.core.run j s = .next u ∧ u.mode = .running) :
    runFuel n s = some (t, resultOf t) := by
  induction k, hk using Nat.le_induction generalizing n s with
  | base =>
    obtain ⟨n, rfl⟩ := Nat.exists_eq_add_of_le' hfuel
    obtain ⟨u, hs, -⟩ := keepsProgram_step s
    cases (run_succ_of_next 0 hs).symm.trans hrun
    exact runFuel_succ_of_ended n hs hend
  | succ k hk ih =>
    obtain ⟨n, rfl⟩ := Nat.exists_eq_add_of_le' (Nat.le_of_add_left_le hfuel)
    obtain ⟨u, hs, -⟩ := keepsProgram_step s
    obtain ⟨v, hv, hrunning⟩ := hfirst 1 le_rfl (by omega)
    cases (run_succ_of_next 0 hs).symm.trans hv
    rw [runFuel_succ_of_running n hs hrunning]
    refine ih (by omega) ((run_succ_of_next k hs).symm.trans hrun) fun j h1 hjk => ?_
    rw [← run_succ_of_next j hs]
    exact hfirst (j + 1) (by omega) (by omega)

/-- Settles O55: the state is the one `runFuel_of_firstEnd` ends in, and its result is not `Continue` as its mode is not
`RUNNING`. -/
theorem runCompletesAtFirstEnd : Obligations.RunCompletesAtFirstEnd :=
  fun _ _ _ _ hk hfuel hrun hend hfirst =>
    ⟨runFuel_of_firstEnd hk hfuel hrun hend hfirst, mt resultOf_eq_continues.mp hend⟩

end Sys2Proof.Machine
end

section
/-! The ports `result` and `mode` after completed steps (80_interfaces.md R180). -/

namespace Sys2Proof.Machine

theorem resultCode_continues_ne_done : resultCode .continues ≠ resultCode .done :=
  (resultCodeIn_distinct _ .noFault).1

theorem resultCode_continues_ne_fault (f : FaultCause) : resultCode .continues ≠ resultCode (.fault f) :=
  (resultCodeIn_distinct _ f).2.1

theorem resultCode_done_ne_fault (f : FaultCause) : resultCode .done ≠ resultCode (.fault f) :=
  (resultCodeIn_distinct _ f).2.2

/-- The pattern of `Continue` is that of no other result. -/
theorem resultCode_eq_continues {r : StepResult} : resultCode r = resultCode .continues ↔ r = .continues := by
  refine ⟨fun h => ?_, congrArg resultCode⟩
  cases r with
  | continues => rfl
  | done => exact absurd h.symm resultCode_continues_ne_done
  | fault f => exact absurd h.symm (resultCode_continues_ne_fault f)

/-- The pattern of `Done` is that of no other result. -/
theorem resultCode_eq_done {r : StepResult} : resultCode r = resultCode .done ↔ r = .done := by
  refine ⟨fun h => ?_, congrArg resultCode⟩
  cases r with
  | continues => exact absurd h resultCode_continues_ne_done
  | done => rfl
  | fault f => exact absurd h.symm (resultCode_done_ne_fault f)

/-- The pattern of `Fault` is that of every fault, whatever its cause, and of no other result. -/
theorem resultCode_eq_fault {r : StepResult} {f : FaultCause} :
    resultCode r = resultCode (.fault f) ↔ ∃ g, r = .fault g := by
  refine ⟨fun h => ?_, fun ⟨_, hr⟩ => hr ▸ rfl⟩
  cases r with
  | continues => exact absurd h (resultCode_continues_ne_fault f)
  | done => exact absurd h (resultCode_done_ne_fault f)
  | fault g => exact ⟨g, rfl⟩

/-- The result is some `Fault` exactly when the step leaves `FAULTED` (R79). -/
theorem exists_resultOf_eq_fault {t : State} : (∃ f, resultOf t = .fault f) ↔ t.mode = .faulted := by
  refine ⟨fun ⟨f, hf⟩ => ?_, fun hm => ⟨_, resultOf_eq_fault.mpr hm⟩⟩
  cases hm : t.mode with
  | running => cases hf.symm.trans (resultOf_eq_continues.mpr hm)
  | halted => cases hf.symm.trans (resultOf_eq_done.mpr hm)
  | faulted => rfl

/-- No two modes share a code (R19). -/
theorem modeCode_inj {m m' : Mode} : modeCode m = modeCode m' ↔ m = m' := by
  cases m <;> cases m' <;> decide

/-- After a completed step with the result R79 gives it, `result` and `mode` agree. -/
theorem portsAgree_complete (idx : BitVec 5) (c : Session) (t : State) :
    PortsAgree (outputs idx (c.complete t (resultOf t))) :=
  ⟨resultCode_eq_continues.trans (resultOf_eq_continues.trans (modeCode_inj (m' := .running)).symm),
    resultCode_eq_done.trans (resultOf_eq_done.trans (modeCode_inj (m' := .halted)).symm),
    fun _ => resultCode_eq_fault.trans (exists_resultOf_eq_fault.trans (modeCode_inj (m' := .faulted)).symm)⟩

/-- Settles O54: `STEP`, and a `RUN` that ends, complete with the result of the state they leave, so the ports agree by
`portsAgree_complete`; the state a `RUN` leaves is not running. -/
theorem resultPortShowsLastStep : Obligations.ResultPortShowsLastStep := by
  refine ⟨fun c idx => ?_, fun n c c' idx h => ?_⟩
  · obtain ⟨t, hs, -⟩ := keepsProgram_step c.core
    exact ⟨_, resultOf t, session_step_of_next hs, stepOp_of_next hs, complete_resultPort c t _,
      portsAgree_complete idx c t⟩
  · obtain ⟨t, r, hr, rfl⟩ := session_run_eq_some h
    obtain ⟨hend, rfl⟩ := ended_of_runFuel hr
    have hresult : resultOf t ≠ .continues := mt resultOf_eq_continues.mp hend
    exact ⟨_, hr, complete_resultPort c t _, mt resultCode_eq_continues.mp hresult, portsAgree_complete idx c t⟩

end Sys2Proof.Machine
end

section
/-! Records, instructions and bytes: every instruction is that of a record, a record's bytes decode to its instruction,
and the reference encoder lays them out one after the other (30_encoding.md R50 to R61, 80_interfaces.md R186). -/

namespace Sys2Proof

/-- The bytes of an opcode and three more decode to the instruction they assemble; `HLT` ignores the three (R51,
R57). -/
theorem decode_opcodeByte (op : Opcode) (b1 b2 b3 : Byte) (rest : List Byte) :
    decode (opcodeByte op :: b1 :: b2 :: b3 :: rest) = .instr (assemble op b1 b2 b3) := by
  cases htakes : takesOperands op with
  | true => exact decode_of_operands (opcodeOfByte_opcodeByte op) htakes b1 b2 b3 rest
  | false =>
    obtain rfl : op = .hlt := by cases op <;> trivial
    exact decode_of_noOperands (op := .hlt) rfl rfl _

/-- Four bytes that decode are an opcode's byte and the three bytes of the instruction it assembles. -/
theorem eq_assemble_of_decode {b0 b1 b2 b3 : Byte} {rest : List Byte} {i : Instr}
    (h : decode (b0 :: b1 :: b2 :: b3 :: rest) = .instr i) :
    b0 = opcodeByte i.opcode ∧ i = assemble i.opcode b1 b2 b3 := by
  cases hop : opcodeOfByte b0 with
  | none => cases (decode_of_noOpcode hop _).symm.trans h
  | some op =>
    obtain rfl := opcodeByte_of_opcodeOfByte hop
    cases (decode_opcodeByte op b1 b2 b3 rest).symm.trans h
    rw [Machine.opcode_assemble]
    exact ⟨rfl, rfl⟩

/-- A record's bytes decode to its instruction, whatever follows them. -/
theorem decode_encodeRecord (r : Record) (rest : List Byte) :
    decode (encodeRecord r ++ rest) = .instr (recordInstr r) :=
  decode_opcodeByte r.opcode r.byte1 r.byte2 r.byte3 rest

/-- Every instruction is that of a record, whose bytes `encode` emits. -/
theorem exists_record_of_instr (i : Instr) : ∃ r : Record, recordInstr r = i ∧ encode i = encodeRecord r := by
  cases i with
  | hlt => exact ⟨⟨.hlt, 0, 0, 0⟩, rfl, rfl⟩
  | load rd imm => exact ⟨⟨.load, rd, immHigh imm, immLow imm⟩, congrArg _ (immOfBytes_immHigh_immLow imm), rfl⟩
  | add ra rb rd => exact ⟨⟨.add, ra, rb, rd⟩, rfl, rfl⟩
  | sub ra rb rd => exact ⟨⟨.sub, ra, rb, rd⟩, rfl, rfl⟩
  | div ra rb rd => exact ⟨⟨.div, ra, rb, rd⟩, rfl, rfl⟩
  | mul ra rb rd => exact ⟨⟨.mul, ra, rb, rd⟩, rfl, rfl⟩
  | gt ra rb rd => exact ⟨⟨.gt, ra, rb, rd⟩, rfl, rfl⟩

/-- `encode` writes back the bytes an instruction with operands was assembled from (R61). -/
theorem encode_assemble {op : Opcode} (hop : op ≠ .hlt) (b1 b2 b3 : Byte) :
    encode (assemble op b1 b2 b3) = [opcodeByte op, b1, b2, b3] := by
  cases op with
  | hlt => exact absurd rfl hop
  | load => simp [assemble, encode, Instr.opcode]
  | _ => rfl

/-- Settles O3: an instruction is that of the record `encode` writes, and a record's bytes decode to its
instruction. -/
theorem decodeOfEncode : Obligations.DecodeOfEncode := by
  intro i rest
  obtain ⟨r, hr, henc⟩ := exists_record_of_instr i
  rw [henc]
  exact ⟨(decode_encodeRecord r rest).trans (congrArg _ hr), rfl⟩

/-- Settles O4: bytes that decode are those of an opcode and what it assembles, which `encode` writes back but for
`HLT`. -/
theorem encodeOfDecode : Obligations.EncodeOfDecode := by
  intro b0 b1 b2 b3 i h
  obtain ⟨hop, hi⟩ := eq_assemble_of_decode h
  by_cases hhlt : i.opcode = .hlt
  · rw [hhlt] at hop hi
    exact .inl ⟨hi, hop⟩
  · refine .inr ?_
    rw [hi, encode_assemble hhlt, hop]

/-- The reference encoder emits four bytes per record (R186). -/
@[simp] theorem length_encodeRecords (rs : List Record) : (encodeRecords rs).length = 4 * rs.length := by
  induction rs with
  | nil => rfl
  | cons r rs ih =>
    rw [encodeRecords, List.length_append, ih, List.length_cons]
    simp [encodeRecord]
    omega

/-- The bytes from address `4k` are those of record `k` and of the records after it. -/
theorem drop_encodeRecords (rs : List Record) (k : Nat) :
    (encodeRecords rs).drop (4 * k) = encodeRecords (rs.drop k) := by
  induction k generalizing rs with
  | zero => rfl
  | succ k ih =>
    cases rs with
    | nil => simp [encodeRecords]
    | cons r rs => exact ih rs

/-- Byte `j` of record `k` lies at address `4k + j`. -/
theorem getElem?_encodeRecords {rs : List Record} {k j : Nat} {r : Record} (hr : rs[k]? = some r) (hj : j < 4) :
    (encodeRecords rs)[4 * k + j]? = (encodeRecord r)[j]? := by
  obtain ⟨hk, rfl⟩ := List.getElem?_eq_some_iff.mp hr
  rw [← List.getElem?_drop, drop_encodeRecords, List.drop_eq_getElem_cons hk, encodeRecords]
  exact List.getElem?_append_left hj

/-- Settles O8: the length by induction on the records, the bytes by `getElem?_encodeRecords`. -/
theorem encoderLaysRecordsOut : Obligations.EncoderLaysRecordsOut := fun rs =>
  ⟨length_encodeRecords rs, fun _ _ hr =>
    ⟨getElem?_encodeRecords hr (j := 0) (by decide), getElem?_encodeRecords hr (j := 1) (by decide),
      getElem?_encodeRecords hr (j := 2) (by decide), getElem?_encodeRecords hr (j := 3) (by decide)⟩⟩

end Sys2Proof
end

section
/-! The instruction word of the opcode table: its high byte is the opcode byte (30_encoding.md R8, R63). -/

namespace Sys2Proof

/-- A whole 32-bit word is its own table word. -/
@[simp] theorem tableWord_toNat (w : BitVec 32) : tableWord 32 w.toNat = w := by
  rw [tableWord, Nat.mod_eq_of_lt w.isLt, BitVec.ofNat_toNat, BitVec.setWidth_eq]

/-- The instruction of a table word is what its four bytes decode to. -/
theorem decodeTableWord_eq_some {nbits w : Nat} {i : Instr} :
    decodeTableWord nbits w = some i ↔ decode (bytesOfTableWord (tableWord nbits w)) = .instr i := by
  unfold decodeTableWord
  split <;> simp [*]

/-- A table word is an instruction of an opcode exactly when its high byte is that opcode's byte (R53, R63). -/
theorem decodeTableWord_opcode_iff {w : BitVec 32} {op : Opcode} :
    (∃ i, decodeTableWord 32 w.toNat = some i ∧ i.opcode = op) ↔ w.extractLsb' 24 8 = opcodeByte op := by
  simp only [decodeTableWord_eq_some, tableWord_toNat, bytesOfTableWord]
  refine ⟨fun ⟨i, hi, hop⟩ => hop ▸ (eq_assemble_of_decode hi).1, fun h => ?_⟩
  rw [h]
  exact ⟨_, decode_opcodeByte op _ _ _ [], Machine.opcode_assemble op _ _ _⟩

/-- The mask of every row of the opcode table keeps the high byte and clears the rest. -/
theorem and_tableMask (w : BitVec 32) : w &&& 0xFF000000#32 = w.extractLsb' 24 8 ++ 0#24 := by
  have hw : w.extractLsb' 24 8 ++ w.extractLsb' 0 24 = w :=
    (BitVec.extractLsb'_append_extractLsb'_eq_extractLsb' (start₁ := 0) (len₁ := 24) rfl).trans
      BitVec.extractLsb'_eq_self
  calc w &&& 0xFF000000#32
      = (w.extractLsb' 24 8 ++ w.extractLsb' 0 24) &&& (BitVec.allOnes 8 ++ 0#24) :=
        congrArg (· &&& 0xFF000000#32) hw.symm
    _ = w.extractLsb' 24 8 ++ 0#24 := by
        rw [BitVec.and_append, BitVec.and_allOnes, BitVec.and_zero]

/-- A word's bits under the mask are an opcode byte over zeros exactly when its high byte is that byte. -/
theorem and_tableMask_eq_iff {w : BitVec 32} {b : Byte} :
    w &&& 0xFF000000#32 = b ++ 0#24 ↔ w.extractLsb' 24 8 = b := by
  rw [and_tableMask, BitVec.append_left_inj]

/-- Settles O5: both sides say that the high byte of the word is the opcode's byte. -/
theorem tableMatchSelectsInstruction : Obligations.TableMatchSelectsInstruction := by
  intro w op
  rw [decodeTableWord_opcode_iff, ← and_tableMask_eq_iff]
  cases op <;> rfl

end Sys2Proof
end

section
/-! Reset and the installed program (10_state.md R24, 70_reset_and_hazards.md R160 to R163). -/

namespace Sys2Proof.Machine

/-- Every general register is zero at reset (R24). -/
@[simp] theorem reset_reg (r : RegNum) : State.reset.reg r = 0 := by
  simp [State.reg, State.reset]

/-- The host's `RESET` clears every general register, as the reset of a fresh machine does (R160). -/
@[simp] theorem resetCore_reg (s : State) (r : RegNum) : (resetCore s).reg r = 0 :=
  reset_reg r

/-- A program of at most 2^31 bytes is installed into the reset state (R163). -/
theorem installProgram_of_fits {bytes : List Byte} (h : bytes.length ≤ Config.progLenMax) (s : State) :
    installProgram bytes s =
      .ok { State.reset with prog := Memory.ofBytes 0 bytes, progLen := ⟨bytes.length, Nat.lt_succ_of_le h⟩ } :=
  dif_pos h

/-- A longer program is refused (R6, U15). -/
theorem installProgram_of_tooLong {bytes : List Byte} (h : Config.progLenMax < bytes.length) (s : State) :
    installProgram bytes s = .error (.programTooLong bytes.length) :=
  dif_neg (Nat.not_le.mpr h)

/-- Everything installing a program can give: it fits and makes up the reset state's program. -/
theorem installProgram_eq_ok {bytes : List Byte} {s t : State} (h : installProgram bytes s = .ok t) :
    ∃ hfits : bytes.length ≤ Config.progLenMax,
      t = { State.reset with prog := Memory.ofBytes 0 bytes, progLen := ⟨bytes.length, Nat.lt_succ_of_le hfits⟩ } := by
  rcases Nat.lt_or_ge Config.progLenMax bytes.length with hlong | hfits
  · cases (installProgram_of_tooLong hlong s).symm.trans h
  · cases (installProgram_of_fits hfits s).symm.trans h
    exact ⟨hfits, rfl⟩

/-- An installed program is as long as its bytes (R163). -/
theorem progLen_of_installProgram {bytes : List Byte} {s t : State} (h : installProgram bytes s = .ok t) :
    t.progLen.val = bytes.length := by
  obtain ⟨hfits, rfl⟩ := installProgram_eq_ok h
  rfl

/-- An installed program's bytes are read at their addresses (R163). -/
theorem read_of_installProgram {bytes : List Byte} {s t : State} (h : installProgram bytes s = .ok t) {a : Nat}
    {b : Byte} (hb : bytes[a]? = some b) : Memory.read t.prog a = b := by
  obtain ⟨hfits, rfl⟩ := installProgram_eq_ok h
  simpa using read_ofBytes 0 bytes a b hb

/-- Settles O10: the registers by `reset_reg`, the rest are the values the reset state is written with. -/
theorem resetLeavesSpecValues : Obligations.ResetLeavesSpecValues :=
  ⟨reset_reg, rfl, rfl, rfl, rfl, rfl⟩

/-- Settles O11: `RESET` gives the reset values and leaves the program where it is. -/
theorem hostResetFromAnyState : Obligations.HostResetFromAnyState :=
  fun s => ⟨resetCore_reg s, rfl, rfl, rfl, rfl, sameProgram_of_eq rfl rfl⟩

/-- Settles O12: a program that fits gives the reset state with its bytes, one that does not is refused. -/
theorem installHoldsProgram : Obligations.InstallHoldsProgram := by
  refine fun bytes s => ⟨fun hfits => ?_, fun hlong => installProgram_of_tooLong hlong s⟩
  have hok := installProgram_of_fits hfits s
  exact ⟨_, hok, reset_reg, rfl, rfl, rfl, rfl, rfl, fun _ _ hb => read_of_installProgram hok hb⟩

/-- Settles O13: no fault is recorded at reset, and the empty memory is canonical. -/
theorem resetMeetsInv : Obligations.ResetMeetsInv :=
  ⟨by decide, rfl, rfl⟩

/-- Settles O14: mode and cause are those of reset, and the memory made of a list of bytes is canonical and ends where
they do. -/
theorem installedProgramMeetsInv : Obligations.InstalledProgramMeetsInv := by
  intro bytes s t h
  obtain ⟨hfits, rfl⟩ := installProgram_eq_ok h
  exact ⟨resetMeetsInv.1, ofBytes_wf 0 bytes, ofBytes_below 0 bytes (Nat.zero_add _).le⟩

end Sys2Proof.Machine
end

section
/-! An encoded program runs in place (80_interfaces.md R186, 40_step_cycle.md R71). -/

namespace Sys2Proof.Machine

/-- A step at four bytes of a record inside the program runs the record's instruction (R71). -/
theorem step_of_record {s : State} {r : Record} (hf : Fetches s) (hfits : s.pc.toNat + 4 ≤ s.progLen.val)
    (hbytes : ∀ j b, (encodeRecord r)[j]? = some b → byteAt s j = b) : step s = exec (recordInstr r) s := by
  rw [step_of_whole hf (hbytes 0 (opcodeByte r.opcode) rfl) (.inr hfits), hbytes 1 r.byte1 rfl, hbytes 2 r.byte2 rfl,
    hbytes 3 r.byte3 rfl]
  rfl

/-- Settles O9: the bytes of record `k` are read at `4k` to `4k + 3`, inside the program, and run by
`step_of_record`. -/
theorem encodedProgramRunsInPlace : Obligations.EncodedProgramRunsInPlace := by
  intro rs s s0 t k r hinstall hr hrun hprog hlen hpc
  have hk : k < rs.length := (List.getElem?_eq_some_iff.mp hr).1
  have hend : t.progLen.val = 4 * rs.length := by
    rw [hlen, progLen_of_installProgram hinstall, length_encodeRecords]
  refine step_of_record ⟨hrun, by omega⟩ (by omega) fun j b hb => ?_
  have hj : j < 4 := (List.getElem?_eq_some_iff.mp hb).1
  rw [byteAt, hprog, hpc]
  exact read_of_installProgram hinstall ((getElem?_encodeRecords hr hj).trans hb)

end Sys2Proof.Machine
end

section
/-! An instruction word placed at `pc` (log entry 11): after consecutive writes memory reads as the bytes written, so
the next step fetches them. -/

namespace Sys2Proof.Machine

/-- Consecutive writes leave every address below them alone. -/
theorem read_writeBytes_of_lt {m : Memory} (h : Memory.wf m = true) {a b : Nat} (hb : b < a) (vs : List Byte) :
    Memory.read (Memory.writeBytes m a vs) b = Memory.read m b := by
  induction vs generalizing m a with
  | nil => rfl
  | cons v vs ih => rw [Memory.writeBytes, ih (write_wf a v h) (by omega), read_write a b v h, if_neg (by omega)]

/-- After consecutive writes memory reads as the bytes written. -/
theorem read_writeBytes {m : Memory} (h : Memory.wf m = true) (a : Nat) {vs : List Byte} {k : Nat} {v : Byte}
    (hv : vs[k]? = some v) : Memory.read (Memory.writeBytes m a vs) (a + k) = v := by
  induction vs generalizing m a k with
  | nil => cases hv
  | cons w vs ih =>
    rw [Memory.writeBytes]
    cases k with
    | zero =>
      calc Memory.read (Memory.writeBytes (Memory.write m a w) (a + 1) vs) a
          = Memory.read (Memory.write m a w) a := read_writeBytes_of_lt (write_wf a w h) (Nat.lt_add_one a) vs
        _ = w := (read_write a a w h).trans (if_pos rfl)
        _ = v := Option.some.inj hv
    | succ k =>
      rw [show a + (k + 1) = a + 1 + k by omega]
      exact ih (write_wf a w h) (a + 1) hv

/-- A whole instruction at `pc` decodes as the bytes there say, and a step runs it (R71). -/
theorem step_of_decode {s : State} {i : Instr} (hf : Fetches s)
    (hdecode : decode [byteAt s 0, byteAt s 1, byteAt s 2, byteAt s 3] = .instr i)
    (hwhole : i.opcode = .hlt ∨ s.pc.toNat + 4 ≤ s.progLen.val) : step s = exec i s := by
  obtain ⟨hop, hi⟩ := eq_assemble_of_decode hdecode
  rw [step_of_whole hf hop hwhole, ← hi]

/-- Settles O17: the instruction that decodes is the one its opcode byte selects. -/
theorem stepRunsDecodedInstruction : Obligations.StepRunsDecodedInstruction :=
  fun _ _ hf hdecode hwhole => step_of_decode hf hdecode (hwhole.imp_left (congrArg Instr.opcode))

/-- Placed bytes that end at or below 2^31 lie inside the program. -/
theorem le_progLen_placeAtPc (s : State) {bs : List Byte} (h : s.pc.toNat + bs.length ≤ Config.progLenMax) :
    s.pc.toNat + bs.length ≤ (s.placeAtPc bs).progLen.val :=
  le_min (le_max_right _ _) h

/-- Settles O16: the four bytes of the word are read at `pc`, inside the program, and run by `step_of_decode`. -/
theorem fetchWordRunsNext : Obligations.FetchWordRunsNext := by
  intro s w i hwf hroom hi
  have hfits : s.pc.toNat + 4 ≤ (s.withFetchWord 32 w).progLen.val :=
    le_progLen_placeAtPc s (bs := bytesOfTableWord (tableWord 32 w)) hroom
  have hbyte : ∀ k b, (bytesOfTableWord (tableWord 32 w))[k]? = some b → byteAt (s.withFetchWord 32 w) k = b :=
    fun _ _ => read_writeBytes hwf s.pc.toNat
  refine step_of_decode ⟨rfl, Nat.lt_of_lt_of_le (Nat.lt_add_of_pos_right (by decide)) hfits⟩ ?_ (.inr hfits)
  rw [hbyte 0 _ rfl, hbyte 1 _ rfl, hbyte 2 _ rfl, hbyte 3 _ rfl]
  exact decodeTableWord_eq_some.mp hi

end Sys2Proof.Machine
end

section
/-! Everything a step can leave, said once, and what follows of every step from it: the invariant, the precision of
faults and their priority (40_step_cycle.md R71, 60_exceptions.md R135 to R137). -/

namespace Sys2Proof.Machine

/-- How a step leaves the state: as it was in a terminal mode (R82), halted at the end of the program (R72), with the
fault `faultAt` names (R136), or with the instruction of its opcode byte completed (R77). -/
inductive StepLeaves (s : State) : State → Prop
  | same (hm : s.mode ≠ .running) : StepLeaves s s
  | ended (hrun : s.mode = .running) (hend : ¬ Fetches s) : StepLeaves s s.halt
  | faulted (hf : Fetches s) {f : FaultKind} (hfault : faultAt s = some f) : StepLeaves s (s.raise f)
  | completed (hf : Fetches s) (hnone : faultAt s = none) {op : Opcode} (hop : byteAt s 0 = opcodeByte op) {t : State}
      (hc : Completes s op t) : StepLeaves s t

/-- Every step leaves the state in one of the four ways. -/
theorem stepLeaves_of_step {s t : State} (h : step s = .next t) : StepLeaves s t := by
  by_cases hf : Fetches s
  · rcases step_of_faultAt hf with ⟨f, hfault, hs⟩ | ⟨hnone, op, u, hop, hs, hc⟩
    · cases hs.symm.trans h
      exact .faulted hf hfault
    · cases hs.symm.trans h
      exact .completed hf hnone hop hc
  · rw [step_of_not_fetches hf] at h
    split at h
    · next hrun =>
      cases h
      exact .ended hrun hf
    · next hm =>
      cases h
      exact .same hm

/-- An instruction that completes writes neither the fault cause nor the program (R31, R136). -/
theorem Completes.frame {s t : State} {op : Opcode} (hc : Completes s op t) :
    t.faultCause = s.faultCause ∧ t.prog = s.prog ∧ t.progLen = s.progLen := by
  cases hc <;> exact ⟨rfl, rfl, rfl⟩

/-- A running state that meets the invariant has recorded no fault (R20). -/
theorem State.Inv.faultCause_of_running {s : State} (hinv : s.Inv) (hrun : s.mode = .running) :
    s.faultCause = .noFault := by
  obtain ⟨hfaulted, -⟩ := hinv
  by_contra hcause
  cases hrun.symm.trans (hfaulted.mp hcause)

/-- A state with the program of one that meets the invariant meets it when it records no fault and is not `FAULTED`. -/
theorem State.Inv.of_noFault {s t : State} (hinv : s.Inv) (hcause : t.faultCause = .noFault) (hm : t.mode ≠ .faulted)
    (hprog : t.prog = s.prog) (hlen : t.progLen = s.progLen) : t.Inv := by
  obtain ⟨-, hwf, hbelow⟩ := hinv
  exact ⟨iff_of_false (not_not.mpr hcause) hm, by rw [hprog, hwf], by rw [hprog, hlen, hbelow]⟩

/-- Settles O33, by the four ways a step leaves the state: only fault entry records a fault, and it leaves `FAULTED`. -/
theorem stepKeepsInv : Obligations.StepKeepsInv := by
  intro s t hinv h
  cases stepLeaves_of_step h with
  | same => exact hinv
  | ended hrun => exact hinv.of_noFault (hinv.faultCause_of_running hrun) nofun rfl rfl
  | faulted hf hfault =>
    obtain ⟨-, hwf, hbelow⟩ := hinv
    exact ⟨iff_of_true nofun rfl, hwf, hbelow⟩
  | completed hf hnone hop hc =>
    obtain ⟨hcause, hprog, hlen⟩ := hc.frame
    exact hinv.of_noFault (hcause.trans (hinv.faultCause_of_running hf.1)) (hc.mode_ne_faulted hf.1) hprog hlen

/-- Settles O25: a fault that `faultAt` names is raised, and without one the instruction completes. -/
theorem faultPriority : Obligations.FaultPriority := by
  intro s hf
  rcases step_of_faultAt hf with ⟨f, hfault, hs⟩ | ⟨hnone, op, t, -, hs, hc⟩
  · refine ⟨_, hs, ?_⟩
    rw [hfault]
    exact raises_raise s f
  · refine ⟨t, hs, ?_⟩
    rw [hnone]
    exact ⟨hc.mode_ne_faulted hf.1, hc.frame.1⟩

/-- Settles O26: a step ends in `FAULTED` by staying there or by fault entry, which writes mode and cause only. -/
theorem faultsArePrecise : Obligations.FaultsArePrecise := by
  intro s t h hm
  cases stepLeaves_of_step h with
  | same => exact ⟨fun _ => rfl, rfl, rfl, sameProgram_of_eq rfl rfl⟩
  | ended => cases hm
  | faulted hf hfault =>
    obtain ⟨-, -, hregs, hpc, hrem, hprog⟩ := raises_raise s _
    exact ⟨hregs, hpc, hrem, hprog⟩
  | completed hf _ _ hc => exact absurd hm (hc.mode_ne_faulted hf.1)

/-- Settles O29: every step answers a next state over the same program. -/
theorem everyStepAnswersNext : Obligations.EveryStepAnswersNext := by
  intro s
  obtain ⟨t, hs, -⟩ := keepsProgram_step s
  exact ⟨t, hs⟩

/-- Settles O23: the form of operands checks every index byte before anything else. -/
theorem illFormedInstructionFaults : Obligations.IllFormedInstructionFaults :=
  fun _ s h => ⟨_, exec_of_not_wellFormed h s, raises_raise s _⟩

end Sys2Proof.Machine
end

section
/-! `RegisterIndexOutOfRange`, the fault of a whole instruction with an index byte above 31 (60_exceptions.md R133). -/

namespace Sys2Proof.Machine

/-- `faultAt` names the index fault exactly at a whole instruction with operands whose index check fails (R133). -/
theorem faultAt_eq_registerIndexOutOfRange {s : State} :
    faultAt s = some .registerIndexOutOfRange ↔
      (1 ≤ (byteAt s 0).toNat ∧ (byteAt s 0).toNat ≤ 6) ∧ s.pc.toNat + 4 ≤ s.progLen.val ∧ badIndex s = true := by
  refine ⟨fun h => ?_, fun ⟨⟨h1, h6⟩, hfits, hbad⟩ => ?_⟩
  · unfold faultAt at h
    split_ifs at h with hillegal hhlt hcut hbad <;> cases h
    exact ⟨⟨Nat.pos_of_ne_zero fun h0 => hhlt (BitVec.eq_of_toNat_eq h0), Nat.not_lt.mp hillegal⟩,
      Nat.not_lt.mp hcut, hbad⟩
  · have hne : byteAt s 0 ≠ 0 := fun h0 => by simp [h0] at h1
    rw [faultAt, if_neg (Nat.not_lt.mpr h6), if_neg hne, if_neg (Nat.not_lt.mpr hfits), if_pos hbad]

/-- The index check fails at `byte1` of a `LOAD`, and at any of the three operand bytes otherwise (R76). -/
theorem badIndex_iff {s : State} :
    badIndex s = true ↔
      if (byteAt s 0).toNat = 1 then 31 < (byteAt s 1).toNat
      else 31 < (byteAt s 1).toNat ∨ 31 < (byteAt s 2).toNat ∨ 31 < (byteAt s 3).toNat := by
  have hload : byteAt s 0 = 1 ↔ (byteAt s 0).toNat = 1 := BitVec.toNat_inj.symm
  unfold badIndex
  split_ifs <;> simp_all [or_assoc]

/-- From `RUNNING` a step raises a fault exactly when it fetches where `faultAt` names it. -/
theorem step_raises_iff {s : State} {f : FaultKind} (hrun : s.mode = .running) :
    (∃ t, step s = .next t ∧ t.mode = .faulted ∧ t.faultCause = .raised f) ↔ Fetches s ∧ faultAt s = some f := by
  refine ⟨fun ⟨t, h, hm, hcause⟩ => faultAt_of_step_raised hrun h hm hcause, fun ⟨hf, hfault⟩ => ?_⟩
  obtain ⟨t, h, hm, hcause, -⟩ := step_raises_of_faultAt hf hfault
  exact ⟨t, h, hm, hcause⟩

/-- Settles O22: the step raises the fault `faultAt` names, which is the index fault where the index check fails. -/
theorem registerIndexFault : Obligations.RegisterIndexFault := by
  intro s hrun
  rw [step_raises_iff hrun, faultAt_eq_registerIndexOutOfRange, badIndex_iff]
  have hfetch : Fetches s ↔ s.pc.toNat < s.progLen.val := and_iff_right hrun
  rw [hfetch]
  split_ifs with hload <;> omega

end Sys2Proof.Machine
end

section
/-! The value of `pc` after a step (10_state.md R15, R17, 40_step_cycle.md R78). -/

namespace Sys2Proof.Machine

/-- Without a fault the instruction at `pc` is `HLT` or lies inside the program with all its bytes (R135). -/
theorem whole_of_faultAt_eq_none {s : State} (hnone : faultAt s = none) :
    byteAt s 0 = 0 ∨ s.pc.toNat + 4 ≤ s.progLen.val := by
  unfold faultAt at hnone
  split_ifs at hnone with hillegal hhlt hcut
  · exact .inl hhlt
  · exact .inr (Nat.not_lt.mp hcut)

/-- A `GT` at `pc` that raises no fault is whole and its three indices are legal (R76, R135). -/
theorem legal_of_gt {s : State} (hgt : byteAt s 0 = 6) (hnone : faultAt s = none) :
    s.pc.toNat + 4 ≤ s.progLen.val ∧
      (byteAt s 1).toNat < 32 ∧ (byteAt s 2).toNat < 32 ∧ (byteAt s 3).toNat < 32 := by
  have hfits := (whole_of_faultAt_eq_none hnone).resolve_left (by simp [hgt])
  have hbad : ¬ badIndex s = true := fun hbad => by
    cases hnone.symm.trans (faultAt_eq_registerIndexOutOfRange.mpr ⟨by simp [hgt], hfits, hbad⟩)
  rw [badIndex_iff, if_neg (by simp [hgt])] at hbad
  exact ⟨hfits, by omega⟩

/-- `GT` with legal indices writes `pc` alone: the third register if the comparison holds, else the next address
(R120). -/
theorem exec_gt_regAt {a b d : Byte} (hlegal : a.toNat < 32 ∧ b.toNat < 32 ∧ d.toNat < 32) (s : State) :
    exec (.gt a b d) s =
      .next (s.setPc
        (if (regAt s a.toNat).toInt > (regAt s b.toNat).toInt then regAt s d.toNat else s.pc + 4)) := by
  obtain ⟨ha, hb, hd⟩ := hlegal
  rw [regAt_of_lt s ha, regAt_of_lt s hb, regAt_of_lt s hd, apply_ite s.setPc]
  exact (execGt_legal ha hb hd s).trans (congrArg _ (if_congr greater_iff rfl rfl))

/-- A step at a `GT` that raises no fault writes `pc` alone, as `exec_gt_regAt` says. -/
theorem step_gt {s : State} (hf : Fetches s) (hgt : byteAt s 0 = 6) (hnone : faultAt s = none) :
    step s =
      .next (s.setPc
        (if (regAt s (byteAt s 1).toNat).toInt > (regAt s (byteAt s 2).toNat).toInt then regAt s (byteAt s 3).toNat
          else s.pc + 4)) := by
  obtain ⟨hfits, hlegal⟩ := legal_of_gt hgt hnone
  exact (step_of_whole (op := .gt) hf hgt (.inr hfits)).trans (exec_gt_regAt hlegal s)

/-- An instruction that completes and is no `GT` advances `pc` by 1 if it is `HLT`, and by 4 otherwise (R15). -/
theorem Completes.pc {s t : State} {op : Opcode} (hc : Completes s op t) (hop : op ≠ .gt) :
    t.pc = s.pc + if op = .hlt then 1 else 4 := by
  cases hc with
  | hlt => rfl
  | write hmem =>
    rw [if_neg (by rintro rfl; simp at hmem)]
    rfl
  | div => rfl
  | gt => exact absurd rfl hop

/-- Settles O36: `GT` by `step_gt`, every other instruction that completes by its advance, and every other step keeps
`pc`. -/
theorem nextPcTable : Obligations.NextPcTable := by
  intro s t h
  cases stepLeaves_of_step h with
  | same hm => rw [if_pos (.inl fun hf => hm hf.1)]
  | ended _ hend => exact (if_pos (.inl hend)).symm
  | faulted _ hfault => exact (if_pos (.inr (by simp [hfault]))).symm
  | @completed hf hnone op hop t hc =>
    rw [if_neg (by simp [hf, hnone])]
    by_cases hgt : op = .gt
    · subst hgt
      cases (step_gt hf hop hnone).symm.trans h
      simp [hop, opcodeByte]
    · have hne : byteAt s 0 ≠ 6 := fun h6 => hgt (opcodeByte_inj (hop.symm.trans h6))
      rw [hc.pc hgt, if_neg (c := _ ∧ _) fun hc => hne hc.1, hop, apply_ite (s.pc + ·)]
      exact if_congr opcodeByte_eq_zero.symm rfl rfl

/-- An advance of `pc` that ends inside the program does not wrap, as `PROG_LEN` is at most 2^31 (R17). -/
theorem toNat_pc_of_advance {s t : State} {n : Word} (hpc : t.pc = s.pc + n)
    (hend : s.pc.toNat + n.toNat ≤ s.progLen.val) :
    t.pc.toNat = s.pc.toNat + n.toNat ∧ t.pc.toNat ≤ s.progLen.val := by
  have hsum : t.pc.toNat = s.pc.toNat + n.toNat := by
    rw [hpc, BitVec.toNat_add_of_lt (hend.trans_lt ((progLen_le s).trans_lt (by decide)))]
  exact ⟨hsum, hsum.trans_le hend⟩

/-- Settles O37: without a fault the instruction lies inside the program, so the advance of O36 does not wrap. -/
theorem pcAdvanceNeverWraps : Obligations.PcAdvanceNeverWraps := by
  intro s t hf hnone hgt h
  have hpc := nextPcTable s t h
  rw [if_neg (by simp [hf, hnone])] at hpc
  by_cases hhlt : byteAt s 0 = 0
  · rw [if_pos hhlt] at hpc ⊢
    exact toNat_pc_of_advance hpc hf.2
  · rw [if_neg hhlt, if_neg fun hc => hgt hc.1] at hpc
    rw [if_neg hhlt]
    exact toNat_pc_of_advance hpc ((whole_of_faultAt_eq_none hnone).resolve_left hhlt)

end Sys2Proof.Machine
end

section
/-! A step depends on program memory only through the bytes it fetches (30_encoding.md R60, 20_memory.md R34): with
another memory that agrees there it does the same. -/

namespace Sys2Proof.Machine

/-- The state with another program memory of the same length. -/
def State.withProg (s : State) (m : Memory) : State := { s with prog := m }

/-- The outcome with another program memory in its next state. -/
def replaceProg (m : Memory) : Result → Result
  | .next t => .next (t.withProg m)
  | .fault f => .fault f
  | .refused r => .refused r

section
variable (m : Memory) (s : State)

/-- The index check of one register does not read program memory. -/
theorem withReg_withProg {d : Byte} {k k' : RegNum → Result} (hk : ∀ r, k' r = replaceProg m (k r)) :
    withReg d (s.withProg m) k' = replaceProg m (withReg d s k) := by
  unfold withReg
  split
  · exact hk _
  · rfl

/-- The index check of three registers does not read program memory. -/
theorem withRegs_withProg {a b d : Byte} {k k' : RegNum → RegNum → RegNum → Result}
    (hk : ∀ r₁ r₂ r₃, k' r₁ r₂ r₃ = replaceProg m (k r₁ r₂ r₃)) :
    withRegs a b d (s.withProg m) k' = replaceProg m (withRegs a b d s k) := by
  unfold withRegs
  split
  · exact hk _ _ _
  · rfl

/-- No instruction reads program memory. -/
theorem exec_withProg (i : Instr) : exec i (s.withProg m) = replaceProg m (exec i s) := by
  cases i with
  | hlt => rfl
  | load rd imm => exact withReg_withProg m s fun _ => rfl
  | add ra rb rd => exact withRegs_withProg m s fun _ _ _ => rfl
  | sub ra rb rd => exact withRegs_withProg m s fun _ _ _ => rfl
  | mul ra rb rd => exact withRegs_withProg m s fun _ _ _ => rfl
  | div ra rb rd =>
    refine withRegs_withProg m s fun a b d => ?_
    rw [apply_ite (replaceProg m)]
    rfl
  | gt ra rb rd =>
    refine withRegs_withProg m s fun a b d => ?_
    rw [apply_ite Host.Outcome.next, apply_ite Host.Outcome.next, apply_ite (replaceProg m)]
    rfl

/-- Decode and dispatch read the bytes they are given and no other. -/
theorem runBytes_withProg (bs : List Byte) : runBytes bs (s.withProg m) = replaceProg m (runBytes bs s) := by
  unfold runBytes
  split
  · exact exec_withProg m s _
  · rfl
  · rfl

end

/-- An instruction fetch always reads the opcode byte (R34). -/
theorem pc_mem_instrAddrs (s : State) : s.pc.toNat ∈ instrAddrs s := by
  unfold instrAddrs
  split
  · exact List.mem_cons_self
  · exact List.mem_cons_self

/-- Which addresses an instruction fetch reads depends on the opcode byte alone (R34). -/
theorem instrAddrs_withProg {s : State} {m : Memory} (hop : Memory.read m s.pc.toNat = Memory.read s.prog s.pc.toNat) :
    instrAddrs (s.withProg m) = instrAddrs s := by
  have hbyte : opcodeAtPc (s.withProg m) = opcodeAtPc s := hop
  unfold instrAddrs
  rw [hbyte]
  rfl

/-- The addresses a step fetches are among the four from `pc` on (R34). -/
theorem fetchAddrs_bounds {s : State} {a : Nat} (ha : a ∈ fetchAddrs s) :
    s.pc.toNat ≤ a ∧ a ≤ s.pc.toNat + 3 := by
  by_cases hf : Fetches s
  · rw [fetchAddrs_of_fetches hf, instrAddrs] at ha
    split at ha
    · simp only [List.mem_cons, List.not_mem_nil, or_false] at ha
      omega
    · obtain rfl := List.mem_singleton.mp ha
      omega
  · simp [fetchAddrs_of_not_fetches hf] at ha

/-- A memory that agrees at the fetched addresses gives the same step (R60). -/
theorem step_withProg {s : State} {m : Memory}
    (hagree : ∀ a ∈ fetchAddrs s, Memory.read m a = Memory.read s.prog a) :
    step (s.withProg m) = replaceProg m (step s) := by
  have hiff : Fetches (s.withProg m) ↔ Fetches s := Iff.rfl
  by_cases hf : Fetches s
  · rw [fetchAddrs_of_fetches hf] at hagree
    rw [step_of_fetches (hiff.mpr hf), step_of_fetches hf, instrAddrs_withProg (hagree _ (pc_mem_instrAddrs s)),
      ← List.map_congr_left hagree]
    exact runBytes_withProg m s _
  · rw [step_of_not_fetches (mt hiff.mp hf), step_of_not_fetches hf, replaceProg, apply_ite (State.withProg · m)]
    rfl

/-- Settles O30: the addresses by `fetchAddrs_bounds`, the step by `step_withProg`. -/
theorem stepDependsOnFetchedBytesOnly : Obligations.StepDependsOnFetchedBytesOnly :=
  fun _ m => ⟨fun _ ha => fetchAddrs_bounds ha,
    fun hagree _ h => (step_withProg hagree).trans (congrArg (replaceProg m) h)⟩

end Sys2Proof.Machine
end

section
/-! The terminal modes, and the lone opcode byte of `HLT` (40_step_cycle.md R82, 30_encoding.md R57). -/

namespace Sys2Proof.Machine

/-- Any number of steps stays where one step stays. -/
theorem run_of_step_self {s : State} (h : step s = .next s) (k : Nat) : Sys2Proof.core.run k s = .next s := by
  induction k with
  | zero => rfl
  | succ k ih => rw [run_succ_of_next k h, ih]

/-- Settles O19: a step that is not running fetches nothing and stays, and its result follows the mode. -/
theorem terminalModesAreFixed : Obligations.TerminalModesAreFixed := by
  intro s hm
  have hnf : ¬ Fetches s := fun hf => hm hf.1
  have hs : step s = .next s := by rw [step_of_not_fetches hnf, if_neg hm]
  refine ⟨run_of_step_self hs, fetchAddrs_of_not_fetches hnf, stepOp_of_halted, fun hfaulted => ?_⟩
  rw [stepOp_of_next hs, resultOf_eq_fault.mpr hfaulted]

/-- Settles O6: `HLT` takes no operands, so its opcode byte is all a step fetches of it. -/
theorem hltIgnoresOperandBytes : Obligations.HltIgnoresOperandBytes := by
  intro s hf hop
  have hwants : wantsOperands (opcodeAtPc s) = false := congrArg wantsOperands hop
  refine ⟨step_of_hlt hf hop, ?_⟩
  simp [fetchAddrs_of_fetches hf, instrAddrs, hwants]

end Sys2Proof.Machine
end

section
/-! The outputs between steps (80_interfaces.md R180). -/

namespace Sys2Proof.Machine

/-- Settles O15: the codes by the values of `mode` and `fault_cause`; the other outputs are the registers themselves. -/
theorem outputsShowState : Obligations.OutputsShowState := by
  refine fun idx c => ⟨?_, ?_, rfl, rfl, rfl⟩
  · show modeCode c.core.mode = _
    cases c.core.mode <;> rfl
  · show causeCode c.core.faultCause = _
    cases c.core.faultCause with
    | noFault => rfl
    | raised f => cases f <;> rfl

end Sys2Proof.Machine
end

section
/-! The machine's step against the pseudocode of R71: branch by branch the same next state, and the result the
pseudocode gives is the one R79 reads off it (40_step_cycle.md R71, R79). -/

namespace Sys2Proof.Machine

/-- The outcome is the next state of the pair, and the pair's result is the one its mode presents. -/
def Presents (r : Result) (p : State × StepResult) : Prop := r = .next p.1 ∧ resultOf p.1 = p.2

/-- Fault entry presents the fault (R136). -/
theorem presents_raise (s : State) (f : FaultKind) : Presents (.next (s.raise f)) (raiseR71 s f) :=
  ⟨rfl, rfl⟩

/-- A next state that is running presents `Continue`. -/
theorem presents_continues {t u : State} (htu : t = u) (hrun : u.mode = .running) :
    Presents (.next t) (u, .continues) :=
  ⟨congrArg _ htu, resultOf_eq_continues.mpr hrun⟩

theorem withRegAt_of_lt (s : State) {n : Nat} (h : n < 32) (v : Word) : withRegAt s n v = s.setReg ⟨n, h⟩ v :=
  dif_pos h

/-- The zero-extended immediate is the number the pseudocode loads (R54, R95). -/
theorem zext32_immOfBytes (high low : Byte) :
    zext32 (immOfBytes high low) = BitVec.ofNat 32 (256 * high.toNat + low.toNat) := by
  apply BitVec.eq_of_toNat_eq
  have hh := high.isLt
  have hl := low.isLt
  rw [zext32_toNat, immOfBytes_toNat, BitVec.toNat_ofNat, Nat.mod_eq_of_lt (by omega)]

section
variable {s : State} (hrun : s.mode = .running)
include hrun

/-- `LOAD` with a legal index is its branch of the dispatch. -/
theorem execLoad_presents {b1 : Byte} (h1 : b1.toNat < 32) (b2 b3 : Byte) :
    Presents (execLoad b1 (immOfBytes b2 b3) s) (dispatchR71 s 1 b1.toNat b2.toNat b3.toNat) := by
  rw [execLoad_legal h1, zext32_immOfBytes, ← withRegAt_of_lt, State.advance, withRegAt_pc]
  exact presents_continues rfl ((withRegAt_mode _ _ _).trans hrun)

variable {a b d : Byte} (hlegal : a.toNat < 32 ∧ b.toNat < 32 ∧ d.toNat < 32)
include hlegal

/-- A register written with `f` of the two source numbers is a branch of the dispatch. -/
theorem withRegs_presents (f : Int → Int → Int) :
    Presents
      (withRegs a b d s fun ra rb rd =>
        .next (s.setReg rd (bv32 (f (signed (s.reg ra)) (signed (s.reg rb))))).advance)
      ({ withRegAt s d.toNat (BitVec.ofInt 32 (f (regAt s a.toNat).toInt (regAt s b.toNat).toInt)) with
          pc := s.pc + 4 }, .continues) := by
  obtain ⟨ha, hb, hd⟩ := hlegal
  rw [withRegs_legal ha hb hd, regAt_of_lt s ha, regAt_of_lt s hb, withRegAt_of_lt s hd]
  exact presents_continues rfl hrun

/-- `DIV` with legal indices is its branch of the dispatch, whether or not the divisor is zero. -/
theorem execDiv_presents : Presents (execDiv a b d s) (dispatchR71 s 4 a.toNat b.toNat d.toNat) := by
  obtain ⟨ha, hb, hd⟩ := hlegal
  rw [execDiv, withRegs_legal ha hb hd, ← regAt_of_lt s ha, ← regAt_of_lt s hb, ← withRegAt_of_lt s hd, State.advance,
    setRem_pc, withRegAt_pc]
  change Presents _ (if signed (regAt s b.toNat) = 0 then _ else _)
  split
  · exact presents_raise s _
  · exact presents_continues rfl ((withRegAt_mode _ _ _).trans hrun)

/-- `GT` with legal indices is the last branch of the dispatch. -/
theorem execGt_presents : Presents (execGt a b d s) (dispatchR71 s 6 a.toNat b.toNat d.toNat) := by
  rw [show execGt a b d s = _ from exec_gt_regAt hlegal s]
  exact presents_continues rfl hrun

end

/-- A legal instruction with operands is its branch of the dispatch (R71 (g)). -/
theorem exec_presents {s : State} (hrun : s.mode = .running) {op : Opcode} (htakes : takesOperands op = true)
    {b1 b2 b3 : Byte} (hwf : (assemble op b1 b2 b3).wellFormed = true) :
    Presents (exec (assemble op b1 b2 b3) s)
      (dispatchR71 s (opcodeByte op).toNat b1.toNat b2.toNat b3.toNat) := by
  cases op with
  | hlt => cases htakes
  | load =>
    have h1 : b1.toNat < 32 := by
      simpa [assemble, Instr.wellFormed, Instr.indexBytes, indexLegal, Nat.lt_succ_iff] using hwf
    exact execLoad_presents hrun h1 b2 b3
  | add => exact withRegs_presents hrun (all_indexLegal_three.mp hwf) (· + ·)
  | sub => exact withRegs_presents hrun (all_indexLegal_three.mp hwf) (· - ·)
  | mul => exact withRegs_presents hrun (all_indexLegal_three.mp hwf) (· * ·)
  | div => exact execDiv_presents hrun (all_indexLegal_three.mp hwf)
  | gt => exact execGt_presents hrun (all_indexLegal_three.mp hwf)

/-- The index check of the pseudocode, made apart for `LOAD` and the others, is `badIndex` (R76). -/
theorem ite_badIndex {α : Type} (s : State) (bad ok : α) :
    (if (byteAt s 0).toNat = 1 then if 31 < (byteAt s 1).toNat then bad else ok
      else if 31 < (byteAt s 1).toNat ∨ 31 < (byteAt s 2).toNat ∨ 31 < (byteAt s 3).toNat then bad else ok) =
      if badIndex s then bad else ok := by
  by_cases hload : (byteAt s 0).toNat = 1 <;> simp [badIndex_iff, hload]

/-- The pseudocode where an opcode byte is fetched (R71 (c) to (g)). -/
theorem stepR71_of_fetches {s : State} (hf : Fetches s) :
    stepR71 s =
      if 6 < (byteAt s 0).toNat then raiseR71 s .illegalOpcode
      else if byteAt s 0 = 0 then ((s.setPc (s.pc + 1)).halt, .done)
      else if s.progLen.val < s.pc.toNat + 4 then raiseR71 s .truncatedProgram
      else if badIndex s then raiseR71 s .registerIndexOutOfRange
      else dispatchR71 s (byteAt s 0).toNat (byteAt s 1).toNat (byteAt s 2).toNat (byteAt s 3).toNat := by
  obtain ⟨hrun, hpc⟩ := hf
  have hinside : ¬ s.progLen.val ≤ s.pc.toNat := Nat.not_le.mpr hpc
  have hzero : (byteAt s 0).toNat = 0 ↔ byteAt s 0 = 0 := BitVec.toNat_inj (y := 0)
  simp only [stepR71, hrun, hinside, reduceCtorEq, if_false]
  exact if_congr Iff.rfl rfl (if_congr hzero rfl (if_congr Iff.rfl rfl (ite_badIndex s _ _)))

/-- The pseudocode where no opcode byte is fetched (R71 (a), (b)). -/
theorem stepR71_of_not_fetches {s : State} (hf : ¬ Fetches s) :
    stepR71 s = if s.mode = .running then (s.halt, .done) else (s, resultOf s) := by
  cases hm : s.mode with
  | running =>
    have hend : s.progLen.val ≤ s.pc.toNat := Nat.not_lt.mp fun hpc => hf ⟨hm, hpc⟩
    simp [stepR71, hm, hend, State.halt]
  | halted => simp [stepR71, hm, resultOf]
  | faulted => simp [stepR71, hm, resultOf]

/-- From every state the step presents what the pseudocode gives. -/
theorem step_presents_stepR71 (s : State) : Presents (step s) (stepR71 s) := by
  by_cases hf : Fetches s
  · rw [stepR71_of_fetches hf]
    rcases step_fetched_cases hf with ⟨hnone, hs⟩ | ⟨hhlt, hs⟩ | ⟨op, hop, htakes, ⟨hcut, hs⟩ | ⟨hfits, hs⟩⟩
    · have hillegal : 6 < (byteAt s 0).toNat := faultAt_eq_illegalOpcode.mp (faultAt_of_noOpcode hnone)
      rw [hs, if_pos hillegal]
      exact presents_raise s _
    · have hzero : byteAt s 0 = 0 := hhlt
      rw [hs, if_neg (by simp [hzero]), if_pos hzero]
      exact ⟨rfl, rfl⟩
    · obtain ⟨hlegal, hne⟩ := byteAt_of_operands hop htakes
      rw [hs, if_neg hlegal, if_neg hne, if_pos hcut]
      exact presents_raise s _
    · obtain ⟨hlegal, hne⟩ := byteAt_of_operands hop htakes
      rw [hs, if_neg hlegal, if_neg hne, if_neg (Nat.not_lt.mpr hfits), badIndex_eq_not_wellFormed hop htakes]
      cases hwf : (assemble op (byteAt s 1) (byteAt s 2) (byteAt s 3)).wellFormed with
      | false =>
        rw [exec_of_not_wellFormed hwf]
        exact presents_raise s _
      | true =>
        rw [hop]
        exact exec_presents hf.1 htakes hwf
  · rw [stepR71_of_not_fetches hf, step_of_not_fetches hf]
    split
    · exact ⟨rfl, rfl⟩
    · exact ⟨rfl, rfl⟩

/-- Settles O31: the step presents what the pseudocode gives, branch by branch. -/
theorem stepRefinesPseudocode : Obligations.StepRefinesPseudocode := by
  intro s
  obtain ⟨hs, hresult⟩ := step_presents_stepR71 s
  exact ⟨hs, by rw [stepOp_of_next hs, hresult]⟩

end Sys2Proof.Machine
end

section
/-! The ALU in the word operations of the library: `ADD`, `SUB` and `MUL` are those of the words, whatever the view of
the operands, and `DIV` is signed division truncated toward zero (43_arithmetic.md R101 to R108). -/

namespace Sys2Proof.Machine

theorem aluAdd_eq_add (v w : Word) : aluAdd v w = v + w := by
  rw [aluAdd, bv32, signed, signed, BitVec.ofInt_add, BitVec.ofInt_toInt, BitVec.ofInt_toInt]

theorem aluSub_eq_sub (v w : Word) : aluSub v w = v - w := by
  rw [aluSub, bv32, signed, signed, Int.sub_eq_add_neg, BitVec.ofInt_add, BitVec.ofInt_neg, BitVec.ofInt_toInt,
    BitVec.ofInt_toInt, BitVec.sub_eq_add_neg]

theorem aluMul_eq_mul (v w : Word) : aluMul v w = v * w := by
  rw [aluMul, bv32, signed, signed, BitVec.ofInt_mul, BitVec.ofInt_toInt, BitVec.ofInt_toInt]

/-- The quotient `DIV` writes is the signed division of the words, which wraps as it does (R104, R106). -/
theorem aluQuot_eq_sdiv (v w : Word) : aluQuot v w = v.sdiv w := by
  apply BitVec.eq_of_toInt_eq
  rw [BitVec.toInt_sdiv, aluQuot, bv32, BitVec.toInt_ofInt]
  rfl

/-- The remainder formula is the truncating remainder (R104, K2). -/
theorem remainder_eq_tmod (v w : Word) : remainder v w = (signed v).tmod (signed w) := by
  rw [remainder, quotient, Int.tmod_def, Int.mul_comm]

/-- The remainder `DIV` writes is the signed remainder of the words (R104, R107). -/
theorem aluRem_eq_srem (v w : Word) : aluRem v w = v.srem w := by
  rw [aluRem, remainder_eq_tmod, signed, signed, ← BitVec.toInt_srem, bv32, BitVec.ofInt_toInt]

/-- The remainder `DIV` writes, read signed, is the truncating remainder (R107). -/
theorem aluRem_toInt (v w : Word) : (aluRem v w).toInt = v.toInt.tmod w.toInt := by
  rw [aluRem_eq_srem, BitVec.toInt_srem]

/-- Without the one overflow the quotient `DIV` writes, read signed, is the exact one rounded toward zero (R106). -/
theorem aluQuot_toInt {v w : Word} (h : ¬ (v.toInt = -2147483648 ∧ w.toInt = -1)) :
    (aluQuot v w).toInt = v.toInt.tdiv w.toInt := by
  rw [aluQuot_eq_sdiv]
  refine BitVec.toInt_sdiv_of_ne_or_ne v w (not_and_or.mp fun ⟨hv, hw⟩ => h ?_)
  rw [hv, hw]
  decide

/-- A word's unsigned value is its signed one, plus 2^32 if that is negative (R7). -/
theorem toNat_eq_toInt_add (v : Word) : (v.toNat : Int) = if v.toInt < 0 then v.toInt + 4294967296 else v.toInt := by
  rw [BitVec.toInt_eq_toNat_cond]
  have hlt := v.isLt
  split_ifs <;> omega

end Sys2Proof.Machine
end

section
/-! The effect of `DIV`, and the laws of the arithmetic instructions (43_arithmetic.md R100 to R108). -/

namespace Sys2Proof.Machine

/-- `DIV` by a divisor that is not zero writes the quotient to the register and the remainder of the old sources to
`rem`, and advances (R100, R104). -/
theorem exec_div_legal {a b d : Byte} (ha : a.toNat < 32) (hb : b.toNat < 32) (hd : d.toNat < 32) (s : State)
    (hne : (s.reg ⟨b.toNat, hb⟩).toInt ≠ 0) :
    exec (.div a b d) s =
      .next ((s.setReg ⟨d.toNat, hd⟩ (aluQuot (s.reg ⟨a.toNat, ha⟩) (s.reg ⟨b.toNat, hb⟩))).setRem
        (aluRem (s.reg ⟨a.toNat, ha⟩) (s.reg ⟨b.toNat, hb⟩))).advance :=
  (withRegs_legal ha hb hd s _).trans (if_neg hne)

/-- What writing a register and `rem` and advancing leaves: the two values, `pc` on by 4, and the rest unchanged. -/
theorem writesReg_setReg_setRem_advance (s : State) (d : RegNum) (q r : Word) :
    WritesReg s ((s.setReg d q).setRem r).advance d q ∧ ((s.setReg d q).setRem r).advance.rem = r ∧
      ((s.setReg d q).setRem r).advance.pc = s.pc + 4 ∧ SameRun s ((s.setReg d q).setRem r).advance ∧
        SameProgram s ((s.setReg d q).setRem r).advance :=
  ⟨⟨setReg_reg_same s d q, fun _ h => setReg_reg_other s q h⟩, rfl, rfl, ⟨rfl, rfl⟩, sameProgram_of_eq rfl rfl⟩

/-- Settles O43: the effect by `exec_div_legal`, the two faults by `exec_div_of_zero` and `withRegs_raises`, the step by
`stepMeets_assemble`. -/
theorem divEffect : Obligations.DivEffect := by
  refine ⟨fun s a b d ha hb hd hne => ⟨_, exec_div_legal ha hb hd s hne, writesReg_setReg_setRem_advance s _ _ _⟩,
    fun s a b d ha hb hd hzero => ?_, fun s _ _ _ h => withRegs_raises h s _, stepMeets_assemble (op := .div) rfl⟩
  rw [← regAt_of_lt s hb] at hzero
  exact ⟨_, exec_div_of_zero ⟨ha, hb, hd⟩ hzero, raises_raise s _⟩

/-- Settles O45: the three operations are those of the words, which are sums, differences and products modulo 2^32. -/
theorem arithmeticWrapsEitherView : Obligations.ArithmeticWrapsEitherView := by
  intro s a b d ha hb hd
  obtain ⟨t, hadd, ⟨hsum, -⟩, -⟩ := withRegs_onlyReg ha hb hd s aluAdd
  obtain ⟨u, hsub, ⟨hdiff, -⟩, -⟩ := withRegs_onlyReg ha hb hd s aluSub
  obtain ⟨v, hmul, ⟨hprod, -⟩, -⟩ := withRegs_onlyReg ha hb hd s aluMul
  refine ⟨⟨t, hadd, ?_⟩, ⟨u, hsub, ?_⟩, ⟨v, hmul, ?_⟩⟩
  · rw [hsum, aluAdd_eq_add, BitVec.toNat_add]
  · rw [hdiff, aluSub_eq_sub, BitVec.toNat_sub]
    have hlt := (s.reg ⟨b.toNat, hb⟩).isLt
    omega
  · rw [hprod, aluMul_eq_mul, BitVec.toNat_mul]

/-- Settles O46: read signed, the quotient and the remainder are the truncating ones, whose law is the library's. -/
theorem divQuotientAndRemainderLaw : Obligations.DivQuotientAndRemainderLaw := by
  intro s a b d ha hb hd hne hoverflow
  refine ⟨_, exec_div_legal ha hb hd s hne, ?_⟩
  rw [advance_reg, setRem_reg, setReg_reg_same, advance_rem, setRem_rem, aluQuot_toInt hoverflow, aluRem_toInt]
  generalize (s.reg ⟨a.toNat, ha⟩).toInt = x, (s.reg ⟨b.toNat, hb⟩).toInt = y at *
  refine ⟨Int.tdiv_mul_add_tmod x y, ?_, Int.tmod_nonneg y, fun hx => ?_⟩
  · rw [Int.natAbs_tmod]
    exact Nat.mod_lt _ (Int.natAbs_pos.mpr hne)
  · have hneg := Int.tmod_nonneg y (Int.neg_nonneg_of_nonpos hx)
    rw [Int.neg_tmod] at hneg
    omega

/-- Settles O47: the overflowing quotient and its remainder are computed; the rest is the effect of `DIV`. -/
theorem divOverflowWraps : Obligations.DivOverflowWraps := by
  intro s a b d ha hb hd hdividend hdivisor
  have hq : aluQuot 0x80000000#32 0xFFFFFFFF#32 = 0x80000000#32 := by decide
  have hr : aluRem 0x80000000#32 0xFFFFFFFF#32 = 0#32 := by decide
  have he := exec_div_legal ha hb hd s (by rw [hdivisor]; decide)
  rw [hdividend, hdivisor, hq, hr] at he
  exact ⟨_, he, writesReg_setReg_setRem_advance s _ _ _⟩

/-- Settles O48: `rem` read signed is the truncating remainder, so read unsigned it is that, plus 2^32 if negative. -/
theorem remainderPattern : Obligations.RemainderPattern := by
  intro s a b d ha hb hd hne
  refine ⟨_, exec_div_legal ha hb hd s hne, ?_⟩
  rw [advance_rem, setRem_rem, toNat_eq_toInt_add, aluRem_toInt]

/-- Settles O49: the sources are those of the state before the write, whichever registers coincide. -/
theorem readsComeBeforeWrites : Obligations.ReadsComeBeforeWrites := by
  intro s a b ha hb
  obtain ⟨t, hadd, ⟨hsum, -⟩, -⟩ := withRegs_onlyReg ha ha ha s aluAdd
  obtain ⟨u, hsub, ⟨hdiff, -⟩, -⟩ := withRegs_onlyReg ha ha ha s aluSub
  refine ⟨⟨t, hadd, ?_⟩, ⟨u, hsub, ?_⟩, fun hne => ⟨_, exec_div_legal ha hb ha s hne, aluRem_toInt _ _⟩⟩
  · rw [hsum, aluAdd_eq_add, BitVec.toNat_add, Nat.two_mul]
  · rw [hdiff, aluSub_eq_sub, BitVec.sub_self]
    rfl

end Sys2Proof.Machine
end

section
/-! Jumps: to a negative target, and to itself (44_branch_gt.md R120, R121). -/

namespace Sys2Proof.Machine

/-- A word that reads negative lies at or beyond the end of any program, as `PROG_LEN` is at most 2^31 (D2). -/
theorem progLen_le_of_toInt_neg {v : Word} (h : v.toInt < 0) (s : State) : s.progLen.val ≤ v.toNat := by
  have hlen := progLen_le s
  have hv := toNat_eq_toInt_add v
  have hlow := BitVec.le_toInt v
  rw [if_pos h] at hv
  omega

/-- Settles O50: the taken `GT` writes `pc` alone, beyond the end of the program, where the next step ends the run by
O18. -/
theorem negativeTargetEndsRun : Obligations.NegativeTargetEndsRun := by
  intro s a b d ha hb hd hrun hgreater hneg
  have he := execGt_legal ha hb hd s
  rw [if_pos (greater_iff.mpr hgreater)] at he
  have hend := progLen_le_of_toInt_neg hneg s
  obtain ⟨-, u, -, hdone, hm, -, hpc, -, hcause, -⟩ :=
    endOfProgramHalts (s.setPc (s.reg ⟨d.toNat, hd⟩)) hrun hend
  refine ⟨_, u, he, ?_, hend, hdone, hm, hpc, hcause⟩
  rw [setPc_pc, toNat_eq_toInt_add, if_pos hneg]

/-- A `RUN` from a running state that a step keeps never ends (R80, R125). -/
theorem runFuel_of_step_self {s : State} (h : step s = .next s) (hrun : s.mode = .running) (n : Nat) :
    runFuel n s = none := by
  induction n with
  | zero => rfl
  | succ n ih => rw [runFuel_succ_of_running n h hrun, ih]

/-- Settles O51: the step writes `pc` with its own value, so it keeps the state. -/
theorem selfJumpNeverEnds : Obligations.SelfJumpNeverEnds := by
  intro s hf hgt hfits h1 h2 h3 hgreater htarget
  have hs : step s = .next s := by
    rw [step_of_whole (op := .gt) hf hgt (.inr hfits)]
    refine (exec_gt_regAt ⟨h1, h2, h3⟩ s).trans ?_
    rw [if_pos hgreater, htarget]
    rfl
  exact fun n => ⟨run_of_step_self hs n, runFuel_of_step_self hs hf.1 n⟩

end Sys2Proof.Machine
end

section
/-! A `RUN` that ends (40_step_cycle.md R80, R84; decision D23). -/

namespace Sys2Proof.Machine

/-- A `RUN` that ends, ends in the first state that is not running, within its fuel. -/
theorem firstEnd_of_runFuel {n : Nat} {s t : State} {r : StepResult} (h : runFuel n s = some (t, r)) :
    ∃ k, 1 ≤ k ∧ k ≤ n ∧ Sys2Proof.core.run k s = .next t ∧
      ∀ j, 1 ≤ j → j < k → ∃ u, Sys2Proof.core.run j s = .next u ∧ u.mode = .running := by
  induction n generalizing s with
  | zero => cases h
  | succ n ih =>
    obtain ⟨u, hs, -⟩ := keepsProgram_step s
    by_cases hrun : u.mode = .running
    · obtain ⟨k, -, hk, hkt, hfirst⟩ := ih ((runFuel_succ_of_running n hs hrun).symm.trans h)
      refine ⟨k + 1, by omega, by omega, (run_succ_of_next k hs).trans hkt, fun j h1 hj => ?_⟩
      obtain ⟨j, rfl⟩ := Nat.exists_eq_add_of_le' h1
      rw [run_succ_of_next j hs]
      cases j with
      | zero => exact ⟨u, rfl, hrun⟩
      | succ j => exact hfirst (j + 1) (by omega) (by omega)
    · cases (runFuel_succ_of_ended n hs hrun).symm.trans h
      exact ⟨1, le_rfl, by omega, run_succ_of_next 0 hs, fun j h1 hj => by omega⟩

/-- Settles O52: the end state and its result by `ended_of_runFuel`, the steps to it by `firstEnd_of_runFuel`. -/
theorem runIsRepeatedSteps : Obligations.RunIsRepeatedSteps := by
  intro n s t r h
  obtain ⟨hend, hr⟩ := ended_of_runFuel h
  exact ⟨hend, hr, firstEnd_of_runFuel h⟩

/-- Settles O53: more fuel reaches the same first end. -/
theorem runEndsAlikeUnderMoreFuel : Obligations.RunEndsAlikeUnderMoreFuel := by
  rintro n k s ⟨t, r⟩ h
  obtain ⟨hend, rfl⟩ := ended_of_runFuel h
  obtain ⟨m, hm, hmn, hrun, hfirst⟩ := firstEnd_of_runFuel h
  exact runFuel_of_firstEnd hm (Nat.le_add_right_of_le hmn) hrun hend hfirst

end Sys2Proof.Machine
end
